-- ==== Sys2Proof/Word.lean ====
section
/-! DEFINITION. The machine's words: bytes, the 32-bit command word and the two decoded fields
(00_scope.md R6, 30_encoding.md R70, R71). A cell and a stack entry hold a signed integer, the type `Int`: their width is
the parameter `CELL_BITS`, kept by a range check (00_scope.md R7 `fits`), not by the type (log entry 7). -/

namespace Sys2Proof

/-- A byte of the program store (20_memory.md R50: "A byte is 8 bits"). -/
abbrev Byte := BitVec 8

/-- The 32-bit packed command word (30_encoding.md R71). -/
abbrev Word := BitVec 32

/-- The 3-bit opcode field `A` (30_encoding.md R71, bits 31:29). -/
abbrev Opcode := BitVec 3

/-- The 24-bit argument field `B` (30_encoding.md R71, bits 23:0). -/
abbrev Argument := BitVec 24

/-- The five bytes of one binary instruction, byte 0 at the lowest offset (30_encoding.md R70). -/
structure InstrBytes where
  b0 : Byte
  b1 : Byte
  b2 : Byte
  b3 : Byte
  b4 : Byte
  deriving DecidableEq, Repr

end Sys2Proof
end

