-- ==== Sys2Proof/Config.lean ====
section
/-! DEFINITION. The implementation parameters (00_scope.md R5): the fixed ones as constants, the three that a model takes
as arguments as the plain data `Params`. -/

namespace Sys2Proof

/-- `INSTR_BYTES`: bytes per instruction, the stride of the program counter (00_scope.md R5). -/
abbrev instrBytes : Nat := 5

/-- `MEM_CELLS`: the number of data-memory cells; the one place where the literal stands (00_scope.md R5). -/
def memCells : Nat := 10000

/-- A parameter that is a natural number or `INF` (00_scope.md R5). -/
inductive Limit where
  | finite (n : Nat)
  | inf
  deriving DecidableEq, Repr

/-- The parameters of the hardware (00_scope.md R5, R33). -/
structure Params where
  /-- `CELL_BITS`, decision D1. -/
  cellBits : Limit
  /-- `STACK_DEPTH`, decision D2. -/
  stackDepth : Limit
  /-- `PROG_MAX_BYTES`, decision D15. -/
  progMaxBytes : Limit
  deriving DecidableEq, Repr

/-- The defaults of 00_scope.md R5: 64, `INF`, `INF`. -/
def Params.standard : Params where
  cellBits := .finite 64
  stackDepth := .inf
  progMaxBytes := .inf

end Sys2Proof
end

