-- ==== Sys2Proof/Machine/State.lean ====
section
/-! DEFINITION. The architectural state (10_state.md R21 to R29), the reasons a step can stop, and the state after
power-on reset (10_state.md R37, 70_reset_and_hazards.md R190). -/

namespace Sys2Proof.Machine

open Sys2Proof

/-- `status`, 2 bits (10_state.md R28); its numbering is `Status.bits`. -/
inductive Status where
  | idle
  | run
  | done
  | fault
  deriving DecidableEq, Repr

/-- `FAULT_CODE`, 3 bits (10_state.md R29, 60_exceptions.md R160); its numbering is `FaultCode.bits`. -/
inductive FaultCode where
  /-- Code 0: no fault. -/
  | none
  /-- Code 1: the decoded opcode is 0, 4, 5 or 6. -/
  | unknownOpcode
  /-- Code 2: an operand is needed and the stack is empty. -/
  | stackUnderflow
  /-- Code 3: the effective address is not in `0 .. 9999`. -/
  | addressOutOfRange
  /-- Code 4: the exact product does not fit a cell. -/
  | arithmeticOverflow
  /-- Code 5: a push onto a stack that holds `STACK_DEPTH` entries. -/
  | stackOverflow
  deriving DecidableEq, Repr

/-- The fault record (10_state.md R29). -/
structure FaultRecord where
  /-- `FAULT_CODE`. -/
  code : FaultCode
  /-- `FAULT_STEP`. -/
  step : Nat
  /-- `FAULT_OPCODE`. -/
  opcode : Opcode
  /-- `FAULT_ARG`. -/
  argument : Argument
  /-- `FAULT_INFO`. -/
  info : Int
  deriving DecidableEq, Repr

/-- The cleared fault record (70_reset_and_hazards.md R191). -/
def FaultRecord.cleared : FaultRecord :=
  ⟨.none, 0, 0, 0, 0⟩

/-- One entry of the execution trace (10_state.md R27). -/
structure TraceEntry where
  opcode : Opcode
  argument : Argument
  /-- The whole stack after the instruction's effect, bottom first. -/
  stackSnapshot : List Int
  deriving DecidableEq, Repr

/-- The data memory: (cell address, value) pairs, addresses strictly rising, no entry equal to what an unlisted cell reads
as (20_memory.md R52; the canonical form is `Memory.wf`). The unit of address is the cell, which has no bytes (R52, R55):
log entry 6. -/
abbrev Memory := List (Nat × Int)

/-- The whole state of the machine. -/
structure State where
  /-- The parameters of 00_scope.md R5, constant over every step and host operation (log entry 2). -/
  params : Params
  /-- `status` (10_state.md R28). -/
  status : Status
  /-- The program counter, a byte offset into `prog` (10_state.md R21). -/
  pc : Nat
  /-- `step`, the number of instructions completed in this run (10_state.md R22). -/
  stepCount : Nat
  /-- The operand stack, bottom first, top last (10_state.md R23, 00_scope.md R7). -/
  stack : List Int
  /-- The data memory (10_state.md R24). -/
  mem : Memory
  /-- The program store; its length is `L` (10_state.md R25, 20_memory.md R50). -/
  prog : List Byte
  /-- A program has been loaded since power-on (70_reset_and_hazards.md R191, R195). -/
  progLoaded : Bool
  /-- The result vector, oldest first (10_state.md R26). -/
  rv : List Int
  /-- The execution trace, oldest first (10_state.md R27). -/
  trace : List TraceEntry
  /-- The fault record (10_state.md R29). -/
  fault : FaultRecord
  deriving DecidableEq, Repr

/-- Why the machine has stopped with a fault (60_exceptions.md R160, R170). Each is raised by `step` in
`status = FAULT`, after the state of the fault entry (R166) has been reached, and names the faulting instruction. All are
safe: R169 gives the engine no step there. -/
inductive Fault where
  /-- Raised by `step` after an opcode 0, 4, 5 or 6 was dispatched (R162). Safe. -/
  | unknownOpcode (step : Nat) (opcode : Opcode) (argument : Argument)
  /-- Raised by `step` after opcode 7, 2 or 3 met an empty stack (R163). Safe. -/
  | stackUnderflow (step : Nat) (opcode : Opcode) (argument : Argument)
  /-- Raised by `step` after opcode 7, 2 or 3 met an address outside `0 .. 9999` (R164). Safe. -/
  | addressOutOfRange (step : Nat) (opcode : Opcode) (argument : Argument) (address : Int)
  /-- Raised by `step` after a product that does not fit (R165). Safe. -/
  | arithmeticOverflow (step : Nat) (opcode : Opcode) (argument : Argument)
  /-- Raised by `step` after a push onto a full stack (R165). Safe. -/
  | stackOverflow (step : Nat) (opcode : Opcode) (argument : Argument)
  deriving DecidableEq, Repr

/-- Why there is no step. No instruction's meaning answers with one of these. -/
inductive Refusal where
  /-- Raised by an arm of `exec` whose instruction has no meaning yet; no arm does. Safe. -/
  | notModelled (mnemonic : String)
  /-- Raised by `step` in `status = IDLE`: no run has been started (40_engine_cycle.md R107). Safe. -/
  | engineIdle
  /-- Raised by `step` in `status = DONE`: the run has ended (40_engine_cycle.md R107, R110). Safe. -/
  | runEnded
  /-- Raised by `step` in `status = FAULT` with `FAULT_CODE = 0`, which no run reaches (log entry 5). Safe. -/
  | noFaultRecorded
  deriving DecidableEq, Repr

/-- The state after power-on reset for given parameters: `status = IDLE` is the spec's (70_reset_and_hazards.md R190); that
nothing is loaded is what R195's "no program ever loaded" says of it; the other values, which the spec leaves
unspecified, are the model's (log entry 1, DESIGN CHOICE, unsafe). -/
def State.powerOn (p : Params) : State where
  params := p
  status := .idle
  pc := 0
  stepCount := 0
  stack := []
  mem := []
  prog := []
  progLoaded := false
  rv := []
  trace := []
  fault := .cleared

/-- The machine right after reset, with the default parameters of 00_scope.md R5. -/
def State.reset : State :=
  State.powerOn .standard

end Sys2Proof.Machine
end

