-- ==== Sys2Proof/Machine/Flags.lean ====
section
/-! DEFINITION. The machine has no flags (10_state.md R30). In their place stand the two conditions its instructions test
against a parameter: whether a value fits a cell (00_scope.md R7 `fits`) and whether the stack is full. -/

namespace Sys2Proof.Machine

open Sys2Proof

/-- `fits(v)`: `-2^(CELL_BITS-1) <= v <= 2^(CELL_BITS-1) - 1`, always true when `CELL_BITS = INF` (00_scope.md R7). -/
def fits (p : Params) (v : Int) : Bool :=
  match p.cellBits with
  | .finite w => decide (-(2 ^ (w - 1) : Int) ≤ v ∧ v ≤ (2 ^ (w - 1) : Int) - 1)
  | .inf => true

/-- `depth = STACK_DEPTH`, only when `STACK_DEPTH` is finite (41_load_constant.md R120). -/
def stackFull (p : Params) (depth : Nat) : Bool :=
  match p.stackDepth with
  | .finite d => depth == d
  | .inf => false

end Sys2Proof.Machine
end

