-- ==== Sys2Proof/Machine/Operands.lean ====
section
/-! DEFINITION. The operand forms (30_encoding.md R75, 20_memory.md R53): the literal, the direct cell address, and the
stack top as a value or as an address; with the address check of R54. -/

namespace Sys2Proof.Machine

open Sys2Proof

/-- The argument as a non-negative integer: zero-extended, neither scaled nor shifted (30_encoding.md R75). -/
def literal (arg : Argument) : Int :=
  (arg.toNat : Int)

/-- The address check: the cell an effective address names, or `none` outside `0 .. 9999` (20_memory.md R54). -/
def cellAddress (a : Int) : Option Nat :=
  if 0 ≤ a ∧ a.toNat < memCells then some a.toNat else none

/-- Direct addressing: the effective address is the argument (20_memory.md R53). -/
def directAddress (arg : Argument) : Option Nat :=
  cellAddress (literal arg)

/-- `top`, `none` on an empty stack (00_scope.md R7). -/
def State.top (s : State) : Option Int :=
  s.stack.getLast?

end Sys2Proof.Machine
end

