-- ==== Sys2Proof/Syntax.lean ====
section
/-! DEFINITION. The instructions, one constructor per row of spec/opcode_table.json, each with the decoded 24-bit argument
that its trace entry or its fault record names (30_encoding.md R76, 10_state.md R27, R29); and the assembler's source form
`A=<int>, B=<int>` (30_encoding.md R86, R87). -/

namespace Sys2Proof

/-- All eight values of the opcode field (30_encoding.md R76). -/
inductive Instr where
  /-- Opcode 0, no instruction: raises `UnknownOpcode` (60_exceptions.md R162). -/
  | illegal0 (argument : Argument)
  /-- Opcode 1, 41_load_constant.md R120. -/
  | loadConstant (argument : Argument)
  /-- Opcode 2, 42_memory_access.md R126. -/
  | storeToMemory (argument : Argument)
  /-- Opcode 3, 43_multiply.md R135. -/
  | multiply (argument : Argument)
  /-- Opcode 4, no instruction: raises `UnknownOpcode` (60_exceptions.md R162). -/
  | illegal4 (argument : Argument)
  /-- Opcode 5, no instruction: raises `UnknownOpcode` (60_exceptions.md R162). -/
  | illegal5 (argument : Argument)
  /-- Opcode 6, no instruction: raises `UnknownOpcode` (60_exceptions.md R162). -/
  | illegal6 (argument : Argument)
  /-- Opcode 7, 42_memory_access.md R125; the argument is ignored by execution and recorded in the trace. -/
  | loadFromMemory (argument : Argument)
  deriving DecidableEq, Repr

/-- An instruction in source form: the integers `A` and `B` before masking (30_encoding.md R82, R86). -/
structure SourceForm where
  a : Int
  b : Int
  deriving DecidableEq, Repr

/-- The name before the `=` of an item of a source line (30_encoding.md R87). -/
inductive FieldName where
  | fieldA
  | fieldB
  | other
  deriving DecidableEq, Repr

/-- One comma-separated item of a source line, `name=<int>`; `value` is `none` where the `=` is missing or the value is no
integer (30_encoding.md R87, R88). How an integer is spelt is left open by R89 (log entry 16). -/
structure SourceItem where
  name : FieldName
  value : Option Int
  deriving DecidableEq, Repr

end Sys2Proof
end

