-- ==== Sys2Proof/WellFormed.lean ====
section
/-! DEFINITION. The checks on terms: the parameters' ranges (00_scope.md R5), the source form's ranges (30_encoding.md R85)
and the instruction's operand range (30_encoding.md R75). -/

namespace Sys2Proof

/-- `CELL_BITS` is an integer of at least 64, or `INF` (00_scope.md R5). -/
def Params.cellBitsValid (p : Params) : Bool :=
  match p.cellBits with
  | .finite w => 64 ≤ w
  | .inf => true

/-- `STACK_DEPTH` is an integer of at least 1, or `INF` (00_scope.md R5). -/
def Params.stackDepthValid (p : Params) : Bool :=
  match p.stackDepth with
  | .finite d => 1 ≤ d
  | .inf => true

/-- The parameters are legal (00_scope.md R5); `PROG_MAX_BYTES` may be any natural number or `INF`. -/
def Params.valid (p : Params) : Bool :=
  p.cellBitsValid && p.stackDepthValid

/-- A "valid `{A: a, B: b}`": `0 ≤ a ≤ 7` and `0 ≤ b ≤ 0xFFFFFF` (30_encoding.md R85). -/
def SourceForm.valid (f : SourceForm) : Bool :=
  decide (0 ≤ f.a ∧ f.a ≤ 7) && decide (0 ≤ f.b ∧ f.b ≤ 0xFFFFFF)

/-- The decoded argument of an instruction. -/
def Instr.argument : Instr → Argument
  | .illegal0 arg => arg
  | .loadConstant arg => arg
  | .storeToMemory arg => arg
  | .multiply arg => arg
  | .illegal4 arg => arg
  | .illegal5 arg => arg
  | .illegal6 arg => arg
  | .loadFromMemory arg => arg

/-- The operand is in `0 .. 16777215` (30_encoding.md R75). The 24-bit type of the field already ensures it
(`Laws.wellFormed_of_type`), so no ill-formed instruction can be written down. -/
def Instr.wellFormed (i : Instr) : Bool :=
  i.argument.toNat ≤ 0xFFFFFF

end Sys2Proof
end

