-- ==== Sys2Proof/Decode.lean ====
section
/-! DEFINITION. The instruction decoder, total on any bytes (30_encoding.md R74 to R79), and after it the encoder (R82, R83)
and the host's entry `decodeTableWord`. -/

namespace Sys2Proof

/-- The little-endian command word in bytes 0 to 3 (20_memory.md R55, 30_encoding.md R73). Byte 4 does not enter it. -/
def InstrBytes.word (b : InstrBytes) : Word :=
  b.b3 ++ b.b2 ++ b.b1 ++ b.b0

/-- `opcode = (word >> 29) & 0x7` (30_encoding.md R74). -/
def wordOpcode (w : Word) : Opcode :=
  ((w >>> 29) &&& 0x7#32).setWidth 3

/-- `argument = word & 0xFFFFFF` (30_encoding.md R74). -/
def wordArgument (w : Word) : Argument :=
  (w &&& 0xFFFFFF#32).setWidth 24

/-- `Decode` of 30_encoding.md R74: five bytes to `(opcode, argument)`; it never fails. -/
def decodeFields (b : InstrBytes) : Opcode × Argument :=
  (wordOpcode b.word, wordArgument b.word)

/-- The opcode map (30_encoding.md R76, 40_engine_cycle.md R104). -/
def Instr.ofFields (op : Opcode) (arg : Argument) : Instr :=
  match op.toFin with
  | 0 => .illegal0 arg
  | 1 => .loadConstant arg
  | 2 => .storeToMemory arg
  | 3 => .multiply arg
  | 4 => .illegal4 arg
  | 5 => .illegal5 arg
  | 6 => .illegal6 arg
  | 7 => .loadFromMemory arg

/-- The instruction in five bytes. -/
def decodeBytes (b : InstrBytes) : Instr :=
  Instr.ofFields (decodeFields b).1 (decodeFields b).2

/-- Why a byte sequence holds no instruction at its front: the one reason is the end of the program
(40_engine_cycle.md R101), never an encoding. -/
inductive DecodeReject where
  | fewerThanFiveBytes
  deriving DecidableEq, Repr

/-- The instruction at the front of a byte sequence, with the bytes after it. -/
def decode : List Byte → Except DecodeReject (Instr × List Byte)
  | b0 :: b1 :: b2 :: b3 :: b4 :: rest => .ok (decodeBytes ⟨b0, b1, b2, b3, b4⟩, rest)
  | _ => .error .fewerThanFiveBytes

/-- The opcode an instruction stands for (30_encoding.md R76). -/
def Instr.opcode : Instr → Opcode
  | .illegal0 _ => 0
  | .loadConstant _ => 1
  | .storeToMemory _ => 2
  | .multiply _ => 3
  | .illegal4 _ => 4
  | .illegal5 _ => 5
  | .illegal6 _ => 6
  | .loadFromMemory _ => 7

/-- The opcode names an instruction: `dec_known` of 10_state.md R36, `{1, 2, 3, 7}` of 60_exceptions.md R162. -/
def Instr.known : Instr → Bool
  | .illegal0 _ => false
  | .loadConstant _ => true
  | .storeToMemory _ => true
  | .multiply _ => true
  | .illegal4 _ => false
  | .illegal5 _ => false
  | .illegal6 _ => false
  | .loadFromMemory _ => true

/-- `word = (A_masked << 29) | B_masked` (30_encoding.md R71, R82). -/
def packWord (op : Opcode) (arg : Argument) : Word :=
  (op.setWidth 32 <<< 29) ||| arg.setWidth 32

/-- The five encoded bytes of masked fields: the word, little-endian, then the filler `0x00` (30_encoding.md R82, R83). -/
def encodeFields (op : Opcode) (arg : Argument) : List Byte :=
  let w := packWord op arg
  [w.extractLsb' 0 8, w.extractLsb' 8 8, w.extractLsb' 16 8, w.extractLsb' 24 8, 0x00#8]

/-- The words of an instruction as the reference encoder emits them. -/
def encode (i : Instr) : List Byte :=
  encodeFields i.opcode i.argument

/-- The reference encoder `Encode(A, B)` for any integers (30_encoding.md R82); `BitVec.ofInt n` is the non-negative
remainder modulo `2^n`, decision D23. -/
def SourceForm.encode (f : SourceForm) : List Byte :=
  encodeFields (BitVec.ofInt 3 f.a) (BitVec.ofInt 24 f.b)

/-- Bytes 0 to 4 of an instruction laid out from one number, byte `k` at bits `8k+7 : 8k` (30_encoding.md R72). -/
def bytesOfNat (w : Nat) : InstrBytes :=
  ⟨BitVec.ofNat 8 w, BitVec.ofNat 8 (w / 2 ^ 8), BitVec.ofNat 8 (w / 2 ^ 16), BitVec.ofNat 8 (w / 2 ^ 24),
    BitVec.ofNat 8 (w / 2 ^ 32)⟩

/-- The bytes as the program store holds them. -/
def InstrBytes.toList (b : InstrBytes) : List Byte :=
  [b.b0, b.b1, b.b2, b.b3, b.b4]

/-- What the decoder reads from an instruction of the opcode table: `w` gives its low `nbits` bits, the others are 0. -/
def decodeTableWord (nbits w : Nat) : Option Instr :=
  match decode (bytesOfNat (w % 2 ^ nbits)).toList with
  | .ok (i, _) => some i
  | .error _ => none

end Sys2Proof
end

