-- ==== Sys2Proof/Machine/Ops.lean ====
section
/-! DEFINITION. The named operations over memory, stack and the run: the primitives of 00_scope.md R7, instruction fetch
(40_engine_cycle.md R102), completion (R106), the end-of-program transition (R101), fault entry (60_exceptions.md R166)
and, beside it, the one way out of a fault, start-of-run initialisation (70_reset_and_hazards.md R191). -/

namespace Sys2Proof.Machine

open Sys2Proof

/-- What an unlisted cell reads as: 0 after `Start` (10_state.md R37); before it no operation can read a cell. -/
abbrev Memory.unlisted : Int := 0

/-- Read of one cell. -/
def Memory.read : Memory → Nat → Int
  | [], _ => Memory.unlisted
  | (k, v) :: rest, a => if k = a then v else Memory.read rest a

/-- Write of one cell, keeping the canonical form: the value an unlisted cell reads as removes the entry. -/
def Memory.write : Memory → Nat → Int → Memory
  | [], a, v => if v = Memory.unlisted then [] else [(a, v)]
  | (k, w) :: rest, a, v =>
    if a < k then (if v = Memory.unlisted then (k, w) :: rest else (a, v) :: (k, w) :: rest)
    else if a = k then (if v = Memory.unlisted then rest else (a, v) :: rest)
    else (k, w) :: Memory.write rest a v

/-- The canonical form from address `lo` on: addresses strictly rising and below `MEM_CELLS`, no entry that reads as an
unlisted cell does. -/
def Memory.wfFrom (lo : Nat) : Memory → Bool
  | [] => true
  | (k, v) :: rest => decide (lo ≤ k) && decide (k < memCells) && decide (v ≠ Memory.unlisted) && Memory.wfFrom (k + 1) rest

/-- The canonical form of the data memory: equal contents are equal data. -/
def Memory.wf (m : Memory) : Bool :=
  Memory.wfFrom 0 m

/-- `push(v)` (00_scope.md R7). -/
def State.push (s : State) (v : Int) : State :=
  { s with stack := s.stack ++ [v] }

/-- The state part of `pop()`: the top entry removed (00_scope.md R7). -/
def State.pop (s : State) : State :=
  { s with stack := s.stack.dropLast }

/-- `depth` (00_scope.md R7). -/
def State.depth (s : State) : Nat :=
  s.stack.length

/-- `MemRead(a, 1)` (00_scope.md R7); the instruction rules check the range first. -/
def State.memRead (s : State) (a : Nat) : Int :=
  s.mem.read a

/-- `MemWrite(a, 1, v)` (00_scope.md R7); the instruction rules check the range first. -/
def State.memWrite (s : State) (a : Nat) (v : Int) : State :=
  { s with mem := s.mem.write a v }

/-- `RV <- RV ++ [v]` (10_state.md R26). -/
def State.appendResult (s : State) (v : Int) : State :=
  { s with rv := s.rv ++ [v] }

/-- The five bytes at offset `off` (`ProgRead(off, 5)`, 00_scope.md R7); meant only where all five exist. -/
def progRead (prog : List Byte) (off : Nat) : InstrBytes :=
  ⟨prog.getD off 0, prog.getD (off + 1) 0, prog.getD (off + 2) 0, prog.getD (off + 3) 0, prog.getD (off + 4) 0⟩

/-- The end-of-program test `L - pc < 5` (40_engine_cycle.md R101). -/
def State.atEnd (s : State) : Bool :=
  s.prog.length < s.pc + instrBytes

/-- The instruction fetched and decoded at `pc` (40_engine_cycle.md R102, R103). -/
def State.fetchInstr (s : State) : Instr :=
  decodeBytes (progRead s.prog s.pc)

/-- The state after completion (40_engine_cycle.md R106): trace entry with the stack after the writes, `step + 1`,
`pc + 5`. -/
def State.completed (s : State) (i : Instr) : State :=
  { s with
    trace := s.trace ++ [⟨i.opcode, i.argument, s.stack⟩]
    stepCount := s.stepCount + 1
    pc := s.pc + instrBytes }

/-- The state after fault entry (60_exceptions.md R166): the fault record is written, `status <- FAULT`, nothing else
changes. -/
def State.faulted (s : State) (code : FaultCode) (info : Int) (i : Instr) : State :=
  { s with
    status := .fault
    fault := ⟨code, s.stepCount, i.opcode, i.argument, info⟩ }

/-- Completion of an instruction whose writes have been made (40_engine_cycle.md R106). -/
def complete (i : Instr) (s : State) : Host.Outcome State Fault Refusal :=
  .next (s.completed i)

/-- `raise X(info)` (00_scope.md R7, 60_exceptions.md R166). It is a NEXT state, which the host can read (R168); log
entry 4. -/
def raise (code : FaultCode) (info : Int) (i : Instr) (s : State) : Host.Outcome State Fault Refusal :=
  .next (s.faulted code info i)

/-- The effect of `Start` (70_reset_and_hazards.md R191), the only way out of `FAULT` (60_exceptions.md R169); `Prog` and
the parameters stay. -/
def State.startRun (s : State) : State :=
  { s with
    status := .run
    pc := 0
    stepCount := 0
    stack := []
    mem := []
    rv := []
    trace := []
    fault := .cleared }

/-- The end-of-program transition: `status <- DONE`, nothing else changes (40_engine_cycle.md R101). -/
def endOfProgram (s : State) : Host.Outcome State Fault Refusal :=
  .next { s with status := .done }

/-- What a step answers in `status = FAULT`: the recorded fault, naming the instruction (60_exceptions.md R169, R170). -/
def faultStop (r : FaultRecord) : Host.Outcome State Fault Refusal :=
  match r.code with
  | .none => .refused .noFaultRecorded
  | .unknownOpcode => .fault (.unknownOpcode r.step r.opcode r.argument)
  | .stackUnderflow => .fault (.stackUnderflow r.step r.opcode r.argument)
  | .addressOutOfRange => .fault (.addressOutOfRange r.step r.opcode r.argument r.info)
  | .arithmeticOverflow => .fault (.arithmeticOverflow r.step r.opcode r.argument)
  | .stackOverflow => .fault (.stackOverflow r.step r.opcode r.argument)

/-- `status` as its two bits (10_state.md R28). -/
def Status.bits : Status → BitVec 2
  | .idle => 0
  | .run => 1
  | .done => 2
  | .fault => 3

/-- `FAULT_CODE` as its three bits (60_exceptions.md R160). -/
def FaultCode.bits : FaultCode → BitVec 3
  | .none => 0
  | .unknownOpcode => 1
  | .stackUnderflow => 2
  | .addressOutOfRange => 3
  | .arithmeticOverflow => 4
  | .stackOverflow => 5

/-- The program store with `new` in place of the bytes from offset `off` on (as many as `new` has), and zeros between the
old end and `off` where the store was shorter: how a test places an instruction, no operation of the hardware. -/
def overlay (prog : List Byte) (off : Nat) (new : List Byte) : List Byte :=
  prog.take off ++ List.replicate (off - prog.length) 0#8 ++ new ++ prog.drop (off + new.length)

end Sys2Proof.Machine
end

