-- ==== Sys2Proof/Machine/Constant.lean ====
section
/-! DEFINITION. `LOAD_CONSTANT` (41_load_constant.md). -/

namespace Sys2Proof.Machine

open Sys2Proof

/-- `LOAD_CONSTANT argument` (41_load_constant.md R120). -/
def execLoadConstant (arg : Argument) (s : State) : Host.Outcome State Fault Refusal :=
  if stackFull s.params s.depth then raise .stackOverflow 0 (.loadConstant arg) s
  else complete (.loadConstant arg) (s.push (literal arg))

end Sys2Proof.Machine
end

