-- ==== Sys2Proof/Machine/Illegal.lean ====
section
/-! DEFINITION. The four illegal opcodes (30_encoding.md R77, 60_exceptions.md R162). -/

namespace Sys2Proof.Machine

open Sys2Proof

/-- `UnknownOpcode(opcode)`: depends on the opcode alone, no stack or memory check is made (60_exceptions.md R162). -/
def unknownOpcode (i : Instr) (s : State) : Host.Outcome State Fault Refusal :=
  raise .unknownOpcode 0 i s

/-- Opcode 0 (60_exceptions.md R162). -/
def execIllegal0 (arg : Argument) (s : State) : Host.Outcome State Fault Refusal :=
  unknownOpcode (.illegal0 arg) s

/-- Opcode 4 (60_exceptions.md R162). -/
def execIllegal4 (arg : Argument) (s : State) : Host.Outcome State Fault Refusal :=
  unknownOpcode (.illegal4 arg) s

/-- Opcode 5 (60_exceptions.md R162). -/
def execIllegal5 (arg : Argument) (s : State) : Host.Outcome State Fault Refusal :=
  unknownOpcode (.illegal5 arg) s

/-- Opcode 6 (60_exceptions.md R162). -/
def execIllegal6 (arg : Argument) (s : State) : Host.Outcome State Fault Refusal :=
  unknownOpcode (.illegal6 arg) s

end Sys2Proof.Machine
end

