-- ==== Sys2Proof/Machine/MemoryAccess.lean ====
section
/-! DEFINITION. `LOAD_FROM_MEMORY` and `STORE_TO_MEMORY` (42_memory_access.md). -/

namespace Sys2Proof.Machine

open Sys2Proof

/-- `LOAD_FROM_MEMORY` (42_memory_access.md R125): stack-indirect; the argument only names the instruction in the records. -/
def execLoadFromMemory (arg : Argument) (s : State) : Host.Outcome State Fault Refusal :=
  match s.top with
  | none => raise .stackUnderflow 0 (.loadFromMemory arg) s
  | some addr =>
    match cellAddress addr with
    | none => raise .addressOutOfRange addr (.loadFromMemory arg) s
    | some a => complete (.loadFromMemory arg) (s.pop.push (s.memRead a))

/-- `STORE_TO_MEMORY argument` (42_memory_access.md R126): direct addressing. -/
def execStoreToMemory (arg : Argument) (s : State) : Host.Outcome State Fault Refusal :=
  match s.top with
  | none => raise .stackUnderflow 0 (.storeToMemory arg) s
  | some v =>
    match directAddress arg with
    | none => raise .addressOutOfRange (literal arg) (.storeToMemory arg) s
    | some a => complete (.storeToMemory arg) (s.pop.memWrite a v)

end Sys2Proof.Machine
end

