-- ==== Sys2Proof/Machine/Multiply.lean ====
section
/-! DEFINITION. `MULTIPLY` (43_multiply.md). -/

namespace Sys2Proof.Machine

open Sys2Proof

/-- The exact mathematical product (43_multiply.md R136). -/
def product (v m : Int) : Int :=
  v * m

/-- `MULTIPLY argument` (43_multiply.md R135, R137): the product on the stack, in the cell and at the end of `RV`. -/
def execMultiply (arg : Argument) (s : State) : Host.Outcome State Fault Refusal :=
  match s.top with
  | none => raise .stackUnderflow 0 (.multiply arg) s
  | some v =>
    match directAddress arg with
    | none => raise .addressOutOfRange (literal arg) (.multiply arg) s
    | some a =>
      let result := product v (s.memRead a)
      if fits s.params result then
        complete (.multiply arg) (((s.pop.push result).memWrite a result).appendResult result)
      else raise .arithmeticOverflow 0 (.multiply arg) s

end Sys2Proof.Machine
end

