-- ==== Sys2Proof/Machine/Dispatch.lean ====
section
/-! DEFINITION. The dispatch (40_engine_cycle.md R104): one arm per row of the opcode table. -/

namespace Sys2Proof.Machine

open Sys2Proof

/-- Execute one decoded instruction (40_engine_cycle.md R104 to R106). -/
def exec (i : Instr) (s : State) : Host.Outcome State Fault Refusal :=
  match i with
  | .illegal0 arg => Sys2Proof.Machine.execIllegal0 arg s
  | .loadConstant arg => Sys2Proof.Machine.execLoadConstant arg s
  | .storeToMemory arg => Sys2Proof.Machine.execStoreToMemory arg s
  | .multiply arg => Sys2Proof.Machine.execMultiply arg s
  | .illegal4 arg => Sys2Proof.Machine.execIllegal4 arg s
  | .illegal5 arg => Sys2Proof.Machine.execIllegal5 arg s
  | .illegal6 arg => Sys2Proof.Machine.execIllegal6 arg s
  | .loadFromMemory arg => Sys2Proof.Machine.execLoadFromMemory arg s

end Sys2Proof.Machine
end

