-- ==== Sys2Proof/Machine/Step.lean ====
section
/-! DEFINITION. The step function, which is the whole engine (40_engine_cycle.md R107), and the host's way to place an
instruction where the next step fetches it. -/

namespace Sys2Proof.Machine

open Sys2Proof

/-- `Step()` of 40_engine_cycle.md R107: defined when `status = RUN`; elsewhere the engine has no step, and the answer says
why by name. -/
def step (s : State) : Host.Outcome State Fault Refusal :=
  match s.status with
  | .idle => .refused .engineIdle
  | .done => .refused .runEnded
  | .fault => faultStop s.fault
  | .run => if s.atEnd then endOfProgram s else exec s.fetchInstr s

/-- `s` with the instruction whose low `nbits` bits are `w` at the program counter and a run in progress: it stands for the
host's `LoadProgram` and `Start` (log entry 9), so that the next step fetches and runs exactly that instruction. -/
def State.withFetchWord (s : State) (nbits w : Nat) : State :=
  { s with
    status := .run
    prog := overlay s.prog s.pc (bytesOfNat (w % 2 ^ nbits)).toList
    progLoaded := true }

end Sys2Proof.Machine
end

