-- ==== Sys2Proof/Machine/HostInterface.lean ====
section
/-! DEFINITION. The host operations (10_state.md R35), among them the read-out (44_host_readout.md). The host is the other
agent; an operation that is not allowed "has no move", and the answer says why by name. -/

namespace Sys2Proof.Machine

open Sys2Proof

/-- The host operations of 10_state.md R35. -/
inductive HostOp where
  | loadProgram (bytes : List Byte)
  | start
  | readStatus
  | readTrace
  | readRV
  /-- `ReadOut(start, end)`; both bounds are arbitrary integers (44_host_readout.md R145). -/
  | readOut (first last : Int)
  deriving DecidableEq, Repr

/-- What the host is answered. -/
inductive HostReply where
  | accepted
  /-- `status` and, when it is `FAULT`, the fault record. -/
  | status (value : Status) (record : Option FaultRecord)
  | trace (entries : List TraceEntry)
  | rv (values : List Int)
  | slice (values : List Int)
  /-- A reply of `ReadOut`, no engine fault (44_host_readout.md R146, 60_exceptions.md R161). -/
  | rangeError
  deriving DecidableEq, Repr

/-- Why the host has no such move in this state. All are safe: no state changes. -/
inductive NoMove where
  /-- `LoadProgram` or `Start` in `status = RUN` (10_state.md R35, 70_reset_and_hazards.md R196). -/
  | runInProgress
  /-- `LoadProgram` of more than `PROG_MAX_BYTES` bytes (10_state.md R35). -/
  | programTooLong
  /-- `Start` with no program ever loaded (70_reset_and_hazards.md R195). -/
  | noProgramLoaded
  /-- `ReadTrace` or `ReadRV` before the run has ended (44_host_readout.md R149). -/
  | runNotEnded
  /-- `ReadOut` outside `status = DONE` (44_host_readout.md R148). -/
  | runNotDone
  deriving DecidableEq, Repr

/-- `LoadProgram` accepts this many bytes (00_scope.md R5 `PROG_MAX_BYTES`). -/
def programFits (p : Params) (len : Nat) : Bool :=
  match p.progMaxBytes with
  | .finite n => len ≤ n
  | .inf => true

/-- The effect of `LoadProgram`: `Prog <- bytes`, `L <- len(bytes)`, "no other state changes" (10_state.md R35). -/
def State.loadProgram (s : State) (bytes : List Byte) : State :=
  { s with prog := bytes, progLoaded := true }

/-- `ReadOut(start, end)` (44_host_readout.md R145, R146). -/
def readOut (m : Memory) (first last : Int) : HostReply :=
  if first < 0 ∨ first > (memCells : Int) ∨ last < 0 ∨ last > (memCells : Int) ∨ first > last then .rangeError
  else .slice ((List.range (last - first).toNat).map fun k => m.read (first.toNat + k))

/-- A run has ended: `DONE` or `FAULT` (40_engine_cycle.md R110). -/
def State.ended (s : State) : Bool :=
  s.status == .done || s.status == .fault

/-- One host operation: the state after it and the reply, or the reason why the host has no such move
(10_state.md R35). -/
def hostOp (op : HostOp) (s : State) : Except NoMove (State × HostReply) :=
  match op with
  | .loadProgram bytes =>
    if s.status = .run then .error .runInProgress
    else if programFits s.params bytes.length then .ok (s.loadProgram bytes, .accepted)
    else .error .programTooLong
  | .start =>
    if s.status = .run then .error .runInProgress
    else if s.progLoaded then .ok (s.startRun, .accepted)
    else .error .noProgramLoaded
  | .readStatus => .ok (s, .status s.status (if s.status = .fault then some s.fault else none))
  | .readTrace => if s.ended then .ok (s, .trace s.trace) else .error .runNotEnded
  | .readRV => if s.ended then .ok (s, .rv s.rv) else .error .runNotEnded
  | .readOut first last => if s.status = .done then .ok (s, readOut s.mem first last) else .error .runNotDone

end Sys2Proof.Machine
end

