-- ==== Sys2Proof/Machine/Ports.lean ====
section
/-! DEFINITION. The reference port list (10_state.md R36), informative in the spec: the output signals as views of the
state, no state of their own. The inputs `start` and `ro_req`, `ro_start`, `ro_end` are the host operations; `clk` and
`rst_n` are `step` and `State.powerOn`. -/

namespace Sys2Proof.Machine

open Sys2Proof

/-- The level outputs of 10_state.md R36. Widths written `P` and `W` there are natural numbers and integers here. -/
structure Ports where
  progLen : Nat
  progAddr : Nat
  /-- `ProgRead(prog_addr, 5)`, byte `k` on bits `8k+7 : 8k`; `none` where fewer than five bytes remain. -/
  progData : Option (BitVec 40)
  status : BitVec 2
  faultCode : BitVec 3
  faultStep : Nat
  faultOpcode : Opcode
  faultArg : Argument
  faultInfo : Int
  /-- `dec_opcode`, `dec_arg`, `dec_known` for `prog_data`; `none` where there is no `prog_data`. -/
  decoded : Option (Opcode × Argument × Bool)
  deriving DecidableEq, Repr

/-- An instruction's five bytes as the 40-bit value `I` (30_encoding.md R72). -/
def InstrBytes.value (b : InstrBytes) : BitVec 40 :=
  b.b4 ++ b.b3 ++ b.b2 ++ b.b1 ++ b.b0

/-- The level outputs in a state. -/
def State.ports (s : State) : Ports where
  progLen := s.prog.length
  progAddr := s.pc
  progData := if s.atEnd then none else some (InstrBytes.value (progRead s.prog s.pc))
  status := s.status.bits
  faultCode := s.fault.code.bits
  faultStep := s.fault.step
  faultOpcode := s.fault.opcode
  faultArg := s.fault.argument
  faultInfo := s.fault.info
  decoded :=
    if s.atEnd then none else some (s.fetchInstr.opcode, s.fetchInstr.argument, s.fetchInstr.known)

/-- The pulses of the step from `s` to `t`: `trace_valid` with its entry (whose snapshot is `trace_stack`, its length
`trace_depth`), and `rv_valid` with `rv_value`. -/
structure Pulses where
  trace : Option TraceEntry
  rv : Option Int
  deriving DecidableEq, Repr

/-- What the step from `s` to `t` has appended to the two logs. -/
def pulses (s t : State) : Pulses where
  trace := t.trace[s.trace.length]?
  rv := t.rv[s.rv.length]?

/-- `ro_err` and the cells on `ro_data` in ascending order, one `ro_valid` each. -/
def readOutPorts : HostReply → Bool × List Int
  | .slice values => (false, values)
  | .rangeError => (true, [])
  | .accepted => (false, [])
  | .status _ _ => (false, [])
  | .trace _ => (false, [])
  | .rv _ => (false, [])

end Sys2Proof.Machine
end

