-- ==== Sys2Proof/Machine/Toolchain.lean ====
section
/-! DEFINITION. The toolchain side of the format, "not part of the hardware" (30_encoding.md R84, R86 to R88): lines of
items to source forms, and source forms to a program. Spelling of lines and integers is left out (log entry 16). -/

namespace Sys2Proof.Machine

open Sys2Proof

/-- The source form of a non-blank line: one or two items, `A` then `B`, each at most once; an absent field is 0
(30_encoding.md R87). `none` is a malformed line (R88). -/
def sourceForm : List SourceItem → Option SourceForm
  | [⟨.fieldA, some a⟩] => some ⟨a, 0⟩
  | [⟨.fieldB, some b⟩] => some ⟨0, b⟩
  | [⟨.fieldA, some a⟩, ⟨.fieldB, some b⟩] => some ⟨a, b⟩
  | _ => none

/-- The assembler's one error, line-addressed (30_encoding.md R88, 60_exceptions.md R161); the hardware never raises it. -/
inductive AsmError where
  | malformedInstruction (line : Nat)
  deriving DecidableEq, Repr

/-- The source forms of a listing whose first line has number `line`; blank lines are skipped, the first malformed line is
fatal (30_encoding.md R86, R88). -/
def parseListing (line : Nat) : List (List SourceItem) → Except AsmError (List SourceForm)
  | [] => .ok []
  | [] :: rest => parseListing (line + 1) rest
  | (item :: items) :: rest =>
    match sourceForm (item :: items) with
    | none => .error (.malformedInstruction line)
    | some f =>
      match parseListing (line + 1) rest with
      | .error e => .error e
      | .ok fs => .ok (f :: fs)

/-- The program: the concatenation of the encodings in source order (30_encoding.md R84). -/
def encodeProgram : List SourceForm → List Byte
  | [] => []
  | f :: fs => f.encode ++ encodeProgram fs

/-- The assembler's trace record of one instruction: `{A, B, command_bytes}` (30_encoding.md R84). -/
structure AsmRecord where
  a : Opcode
  b : Argument
  bytes : List Byte
  deriving DecidableEq, Repr

/-- The record of one source form: masked fields and encoded bytes. -/
def asmRecord (f : SourceForm) : AsmRecord :=
  ⟨BitVec.ofInt 3 f.a, BitVec.ofInt 24 f.b, f.encode⟩

/-- Assembling a listing: the program and the parallel records, or the error and no bytes at all (30_encoding.md R84,
R88). Lines are counted from 1. -/
def assemble (lines : List (List SourceItem)) : Except AsmError (List Byte × List AsmRecord) :=
  match parseListing 1 lines with
  | .error e => .error e
  | .ok fs => .ok (encodeProgram fs, fs.map asmRecord)

end Sys2Proof.Machine
end

