-- ==== Sys2Proof/Safety.lean ====
section
/-! DEFINITION. The terms that claims about runs use: runs of the engine, states reachable by engine and host, what a safe
and final state is (40_engine_cycle.md R110), and the invariants of a run (10_state.md R34). -/

namespace Sys2Proof.Machine

open Sys2Proof

/-- `t` is reached from `s` by engine steps alone. -/
inductive EngineSteps : State → State → Prop where
  | refl (s : State) : EngineSteps s s
  | tail {s t u : State} : EngineSteps s t → step t = .next u → EngineSteps s u

/-- `t` is reached in a run that the host started in `s₀` (70_reset_and_hazards.md R200, LP2). -/
def RunReaches (s₀ t : State) : Prop :=
  ∃ s, hostOp .start s₀ = .ok (s, .accepted) ∧ EngineSteps s t

/-- The states that the engine and the host together can reach from power-on. -/
inductive Reachable (p : Params) : State → Prop where
  | powerOn : Reachable p (State.powerOn p)
  | engine {s t : State} : Reachable p s → step s = .next t → Reachable p t
  | host {s t : State} {op : HostOp} {r : HostReply} : Reachable p s → hostOp op s = .ok (t, r) → Reachable p t

/-- The only final state is `DONE`; `FAULT` is never final (40_engine_cycle.md R110). -/
def State.final (s : State) : Bool :=
  s.status == .done

/-- A state is safe when no fault has been entered. -/
def State.safe (s : State) : Bool :=
  s.status != .fault

/-- The encoding of an instruction: what the reference encoder emits, with `byte3` the opcode byte, and exactly which five
bytes decode to it: bits 4:0 of byte 3 and byte 4 are free (30_encoding.md R76, R78, R79). -/
def EncodedAs (i : Instr) (byte3 : Byte) : Prop :=
  (∃ x0 x1 x2 : Byte, encode i = [x0, x1, x2, byte3, 0x00] ∧
    x0.toNat + 256 * x1.toNat + 65536 * x2.toNat = i.argument.toNat) ∧
  ∀ b : InstrBytes, decodeBytes b = i ↔ b.b3.toNat / 32 = byte3.toNat / 32 ∧
    b.b0.toNat + 256 * b.b1.toNat + 65536 * b.b2.toNat = i.argument.toNat

/-- What completion records and what no instruction touches (40_engine_cycle.md R106; 10_state.md R33): the trace entry
holds the stack after the effect. -/
structure Completes (i : Instr) (s t : State) : Prop where
  trace : t.trace = s.trace ++ [⟨i.opcode, i.argument, t.stack⟩]
  stepCount : t.stepCount = s.stepCount + 1
  pc : t.pc = s.pc + 5
  status : t.status = s.status
  fault : t.fault = s.fault
  prog : t.prog = s.prog
  progLoaded : t.progLoaded = s.progLoaded
  params : t.params = s.params

/-- What a fault entry writes and that it changes nothing else (60_exceptions.md R166). -/
structure FaultEntered (code : FaultCode) (info : Int) (i : Instr) (s t : State) : Prop where
  status : t.status = .fault
  code : t.fault.code = code
  step : t.fault.step = s.stepCount
  opcode : t.fault.opcode = i.opcode
  argument : t.fault.argument = i.argument
  info : t.fault.info = info
  stack : t.stack = s.stack
  mem : t.mem = s.mem
  rv : t.rv = s.rv
  trace : t.trace = s.trace
  pc : t.pc = s.pc
  stepCount : t.stepCount = s.stepCount
  prog : t.prog = s.prog
  progLoaded : t.progLoaded = s.progLoaded
  params : t.params = s.params

/-- `exec` answers the state in which the instruction has entered this fault. -/
def Enters (code : FaultCode) (info : Int) (i : Instr) (s : State) : Prop :=
  ∃ t, exec i s = .next t ∧ FaultEntered code info i s t

/-- `fits(v)` as 00_scope.md R7 writes it. -/
def Fits (p : Params) (v : Int) : Prop :=
  ∀ w, p.cellBits = .finite w → -(2 ^ (w - 1) : Int) ≤ v ∧ v ≤ (2 ^ (w - 1) : Int) - 1

/-- The depth a finite `STACK_DEPTH` admits (10_state.md R23). -/
def depthAdmitted (p : Params) (depth : Nat) : Prop :=
  ∀ d, p.stackDepth = .finite d → depth ≤ d

/-- The invariants of a run (10_state.md R34), with legal parameters, the memory's canonical form, and what `DONE` and
`FAULT` say of the program (40_engine_cycle.md R110, 60_exceptions.md R168). -/
structure RunInv (s : State) : Prop where
  params_valid : s.params.valid = true
  mem_wf : s.mem.wf = true
  pc_eq : s.pc = 5 * s.stepCount
  pc_le : s.pc ≤ s.prog.length
  trace_length : s.trace.length = s.stepCount
  rv_length : s.rv.length ≤ s.stepCount
  depth_le : s.stack.length ≤ s.stepCount
  depth_admitted : depthAdmitted s.params s.stack.length
  stack_fits : ∀ v ∈ s.stack, fits s.params v = true
  mem_fits : ∀ a, fits s.params (s.mem.read a) = true
  rv_fits : ∀ v ∈ s.rv, fits s.params v = true
  stack_nonneg : ∀ v ∈ s.stack, 0 ≤ v
  mem_nonneg : ∀ a, 0 ≤ s.mem.read a
  rv_nonneg : ∀ v ∈ s.rv, 0 ≤ v
  done_at_end : s.status = .done → s.prog.length < s.pc + 5
  fault_recorded : s.status = .fault →
    s.fault.code ≠ .none ∧ s.fault.step = s.stepCount ∧ s.pc + 5 ≤ s.prog.length ∧
    (s.fault.opcode, s.fault.argument) = decodeFields (progRead s.prog s.pc)
  no_fault_clear : s.status ≠ .fault → s.fault = .cleared

/-- The number of completed instructions of an opcode, as the trace records them. -/
def State.completedCount (s : State) (op : Opcode) : Nat :=
  s.trace.countP (fun e => e.opcode == op)

/-- The product a trace entry records: the stack top after a `MULTIPLY` (43_multiply.md R135). -/
def TraceEntry.result (e : TraceEntry) : Option Int :=
  if e.opcode = 3 then e.stackSnapshot.getLast? else none

/-- What holds in every state the engine and the host can reach together, whatever was loaded after a run (10_state.md R28,
R29, R34): the invariants of R34 that do not speak of the program. -/
structure SystemInv (p : Params) (s : State) : Prop where
  params : s.params = p
  mem_wf : s.mem.wf = true
  pc_eq : s.pc = 5 * s.stepCount
  trace_length : s.trace.length = s.stepCount
  rv_length : s.rv.length ≤ s.stepCount
  depth_le : s.stack.length ≤ s.stepCount
  fault_iff : s.status = .fault ↔ s.fault.code ≠ .none
  fault_step : s.status = .fault → s.fault.step = s.stepCount
  run_loaded : s.status ≠ .idle → s.progLoaded = true

/-- What the logs say of the run (10_state.md R26, R27, 70_reset_and_hazards.md R200, 41_load_constant.md R120): trace
entry `k` has the fields of record `k` of the program, the last snapshot is the stack, the result vector lists the results
of the `MULTIPLY` entries, and `depth` is the number of `LOAD_CONSTANT` less the number of `STORE_TO_MEMORY`. -/
structure TraceInv (s : State) : Prop where
  fields : s.trace.map (fun e => (e.opcode, e.argument)) =
    (List.range s.stepCount).map (fun k => decodeFields (progRead s.prog (5 * k)))
  last : s.stack = (s.trace.getLast?.map TraceEntry.stackSnapshot).getD []
  results : s.rv = s.trace.filterMap TraceEntry.result
  balance : s.stack.length + s.completedCount 2 = s.completedCount 1

/-- The largest 24-bit constant (43_multiply.md R138). -/
def maxConstant : Int := 2 ^ 24 - 1

/-- No value exceeds `c^(2^k)` after `k` completed `MULTIPLY` instructions (43_multiply.md R138). -/
structure GrowthInv (s : State) : Prop where
  stack_le : ∀ v ∈ s.stack, v ≤ maxConstant ^ (2 ^ s.rv.length)
  mem_le : ∀ a, s.mem.read a ≤ maxConstant ^ (2 ^ s.rv.length)
  rv_le : ∀ v ∈ s.rv, v ≤ maxConstant ^ (2 ^ s.rv.length)

/-- Two programs are the same to the decoder: as many complete records, and record by record the same opcode and argument.
Their padding bytes, unused bits and trailing partial records may differ (20_memory.md R51, 30_encoding.md R78, R79). -/
def SameRecords (p q : List Byte) : Prop :=
  p.length / 5 = q.length / 5 ∧
    ∀ k, k < p.length / 5 → decodeFields (progRead p (5 * k)) = decodeFields (progRead q (5 * k))

/-- The same state with another program in the store. -/
def State.withProg (s : State) (q : List Byte) : State :=
  { s with prog := q }

/-- An outcome with its next state changed by `f`. -/
def mapNext (f : State → State) : Host.Outcome State Fault Refusal → Host.Outcome State Fault Refusal
  | .next t => .next (f t)
  | .fault r => .fault r
  | .refused r => .refused r

/-- The same state of the machine with `CELL_BITS = INF` and `STACK_DEPTH = INF` (00_scope.md R5): the unbounded reference
of 43_multiply.md R137. -/
def State.unbounded (s : State) : State :=
  { s with params := { s.params with cellBits := .inf, stackDepth := .inf } }

end Sys2Proof.Machine
end

