-- ==== Sys2Proof/Certificates/Slice0/Obligations.lean ====
section
/-! DEFINITION. The statements about the model, one per `def Obligations.<Name> : Prop`; OBLIGATIONS.json lists them with
the rules they formalise. -/

open Sys2Proof Sys2Proof.Machine

/-! ## The decoder and the encoder -/

/-- 30_encoding.md R74, in arithmetic on numbers: the opcode and the argument of any five bytes. Neither formula mentions
byte 4, and the opcode is `b3 / 32`, so bits 4:0 of byte 3 do not enter it. -/
def Obligations.DecodeComputesOpcodeAndArgument : Prop :=
  ∀ b : InstrBytes,
    (decodeFields b).1.toNat =
      (b.b0.toNat + 256 * b.b1.toNat + 65536 * b.b2.toNat + 16777216 * b.b3.toNat) / 2 ^ 29 % 8 ∧
    (decodeFields b).2.toNat =
      (b.b0.toNat + 256 * b.b1.toNat + 65536 * b.b2.toNat + 16777216 * b.b3.toNat) % 2 ^ 24 ∧
    (decodeFields b).1.toNat = b.b3.toNat / 32 ∧
    (decodeFields b).2.toNat = b.b0.toNat + 256 * b.b1.toNat + 65536 * b.b2.toNat

/-- 30_encoding.md R76: the opcode alone selects the instruction, for all eight values, and byte 3 of an encoding is the
opcode times 32. -/
def Obligations.OpcodeMapSelectsInstruction : Prop :=
  (∀ b : InstrBytes,
    ((decodeFields b).1 = 0 → decodeBytes b = .illegal0 (decodeFields b).2) ∧
    ((decodeFields b).1 = 1 → decodeBytes b = .loadConstant (decodeFields b).2) ∧
    ((decodeFields b).1 = 2 → decodeBytes b = .storeToMemory (decodeFields b).2) ∧
    ((decodeFields b).1 = 3 → decodeBytes b = .multiply (decodeFields b).2) ∧
    ((decodeFields b).1 = 4 → decodeBytes b = .illegal4 (decodeFields b).2) ∧
    ((decodeFields b).1 = 5 → decodeBytes b = .illegal5 (decodeFields b).2) ∧
    ((decodeFields b).1 = 6 → decodeBytes b = .illegal6 (decodeFields b).2) ∧
    ((decodeFields b).1 = 7 → decodeBytes b = .loadFromMemory (decodeFields b).2)) ∧
  (∀ i : Instr, (encode i)[3]? = some (BitVec.ofNat 8 (32 * i.opcode.toNat)))

/-- 30_encoding.md R78 and R79: bits 28:24 of the word and byte 4 do not reach the decoded instruction; the encoder writes
them as 0; and byte 4 must be present. -/
def Obligations.UnusedBitsAndPaddingAreIgnored : Prop :=
  (∀ b c : InstrBytes, b.b0 = c.b0 → b.b1 = c.b1 → b.b2 = c.b2 → b.b3.toNat / 32 = c.b3.toNat / 32 →
    decodeBytes b = decodeBytes c) ∧
  (∀ f : SourceForm, (∃ x, f.encode[3]? = some x ∧ x.toNat % 32 = 0) ∧ f.encode[4]? = some 0) ∧
  (∀ b0 b1 b2 b3 : Byte, decode [b0, b1, b2, b3] = .error .fewerThanFiveBytes)

/-- 30_encoding.md R82 and R83: the encoder masks any integers silently and packs them; the unused bits are 0 and the fifth
byte is the filler 0. -/
def Obligations.EncodeMasksAndPacks : Prop :=
  ∀ A B : Int, ∃ x0 x1 x2 x3 : Byte, (SourceForm.mk A B).encode = [x0, x1, x2, x3, 0] ∧
    (x0.toNat : Int) + 256 * x1.toNat + 65536 * x2.toNat + 16777216 * x3.toNat = A % 8 * 2 ^ 29 + B % 2 ^ 24 ∧
    x3.toNat % 32 = 0

/-- 30_encoding.md R85: encoding then decoding yields the fields back, masked for any integers; the other direction holds
exactly when the 13 ignored bits are zero. -/
def Obligations.RoundTripOfFields : Prop :=
  (∀ f : SourceForm, f.valid = true → ∃ i, decode f.encode = .ok (i, []) ∧
    (i.opcode.toNat : Int) = f.a ∧ (i.argument.toNat : Int) = f.b) ∧
  (∀ f : SourceForm, ∃ i, decode f.encode = .ok (i, []) ∧
    (i.opcode.toNat : Int) = f.a % 8 ∧ (i.argument.toNat : Int) = f.b % 2 ^ 24) ∧
  (∀ b : InstrBytes, encodeFields (decodeFields b).1 (decodeFields b).2 = b.toList ↔
    b.b3.toNat % 32 = 0 ∧ b.b4 = 0)

/-- Decode and encode agree, for every instruction with every argument, whatever bytes follow. Every `Instr` is
well-formed by its type (`Laws.wellFormed_of_type`), so no hypothesis is needed. -/
def Obligations.DecodeOfEncodeIsTheInstruction : Prop :=
  ∀ (i : Instr) (rest : List Byte), i.wellFormed = true ∧ decode (encode i ++ rest) = .ok (i, rest)

/-- The count of encodings: each (opcode, argument) pair has `2^13` encodings, and opcode 7 with any argument `2^37`
(30_encoding.md section 4, an inference the spec marks as its own). -/
def Obligations.CountOfEncodings : Prop :=
  (∀ i : Instr, Nat.card { b : InstrBytes // decodeBytes b = i } = 2 ^ 13) ∧
  Nat.card { b : InstrBytes // ∃ arg, decodeBytes b = .loadFromMemory arg } = 2 ^ 37

/-- A few words written out from the spec's tables (30_encoding.md section 7, 95_test_vectors.md section 2.1) decode to the
instructions they stand for. -/
def Obligations.WorkedEncodingsDecode : Prop :=
  decode [0xB9, 0x00, 0x00, 0x20, 0x00] = .ok (.loadConstant 185, []) ∧
  decode [0x04, 0x00, 0x00, 0x40, 0x00] = .ok (.storeToMemory 4, []) ∧
  decode [0x00, 0x00, 0x00, 0x60, 0x00] = .ok (.multiply 0, []) ∧
  decode [0x56, 0x34, 0x12, 0xE0, 0x00] = .ok (.loadFromMemory 0x123456, []) ∧
  decode [0x56, 0x34, 0x12, 0xA0, 0x00] = .ok (.illegal5 0x123456, []) ∧
  decode [0x00, 0x00, 0x00, 0x1F, 0x00] = .ok (.illegal0 0, []) ∧
  (SourceForm.mk 9 0x1FFFFFF).encode = [0xFF, 0xFF, 0xFF, 0x20, 0x00]

/-- 30_encoding.md R84: a program is the concatenation of the encodings in source order, `5N` bytes, with one record per
instruction of masked `A`, masked `B` and the five bytes; and record `k` of the program is instruction `k`. -/
def Obligations.ProgramIsTheConcatenation : Prop :=
  ∀ (lines : List (List SourceItem)) (fs : List SourceForm), parseListing 1 lines = .ok fs →
    ∃ bytes records, assemble lines = .ok (bytes, records) ∧ bytes = fs.flatMap SourceForm.encode ∧
      bytes.length = 5 * fs.length ∧ records.length = fs.length ∧
      ∀ k f, fs[k]? = some f →
        records[k]? = some ⟨BitVec.ofInt 3 f.a, BitVec.ofInt 24 f.b, f.encode⟩ ∧ f.encode.length = 5 ∧
        decodeFields (progRead bytes (5 * k)) = (BitVec.ofInt 3 f.a, BitVec.ofInt 24 f.b)

/-- 30_encoding.md R87: the shapes of a source line and the default 0; a line without `A` encodes opcode 0. -/
def Obligations.SourceLineShapes : Prop :=
  (∀ (items : List SourceItem) (f : SourceForm), sourceForm items = some f ↔
    (items = [⟨.fieldA, some f.a⟩] ∧ f.b = 0) ∨ (items = [⟨.fieldB, some f.b⟩] ∧ f.a = 0) ∨
      items = [⟨.fieldA, some f.a⟩, ⟨.fieldB, some f.b⟩]) ∧
  (∀ b f, sourceForm [⟨.fieldB, some b⟩] = some f → ∃ arg, decode f.encode = .ok (.illegal0 arg, []))

/-- The assembler stops at the first malformed line, names it and emits nothing (30_encoding.md sections 5 and 6). That
lines count from 1 is the model's choice (log entry 16). -/
def Obligations.FirstMalformedLineIsNamed : Prop :=
  ∀ (lines : List (List SourceItem)) (n : Nat), assemble lines = .error (.malformedInstruction n) ↔
    ∃ k items, n = k + 1 ∧ lines[k]? = some items ∧ items ≠ [] ∧ sourceForm items = none ∧
      ∀ j, j < k → ∀ earlier, lines[j]? = some earlier → earlier = [] ∨ sourceForm earlier ≠ none

/-! ## The engine's step -/

/-- A step runs the decoded instruction: in `RUN`, when the bytes at the program counter decode to `i`, the step is `exec` of
`i`, with nothing added around it (40_engine_cycle.md sections 1 and 2). -/
def Obligations.StepRunsTheDecodedInstruction : Prop :=
  ∀ (s : State) (i : Instr) (rest : List Byte), s.status = .run → decode (s.prog.drop s.pc) = .ok (i, rest) →
    step s = exec i s

/-- 40_engine_cycle.md R101: fewer than five bytes left is the normal end, whatever `L mod 5` is. -/
def Obligations.EndOfProgramIsDone : Prop :=
  ∀ s : State, s.status = .run → s.prog.length < s.pc + 5 →
    ∃ t, step s = .next t ∧ t.status = .done ∧ t.pc = s.pc ∧ t.stepCount = s.stepCount ∧ t.trace = s.trace ∧
      t.stack = s.stack ∧ t.mem = s.mem ∧ t.rv = s.rv ∧ t.fault = s.fault ∧ t.prog = s.prog ∧
      t.progLoaded = s.progLoaded ∧ t.params = s.params

/-- The engine has a step exactly in `RUN`, and there it always answers a next state (40_engine_cycle.md section 2). -/
def Obligations.StepIsDefinedExactlyInRun : Prop :=
  ∀ s : State, (∃ t, step s = .next t) ↔ s.status = .run

/-- What the step answers outside `RUN`; in `FAULT` it names the recorded fault and the faulting instruction. That a fault
entry is a next state and the step after it the fault outcome is the model's reading (log entries 4 and 5). -/
def Obligations.StoppedEngineSaysWhy : Prop :=
  ∀ s : State,
    (s.status = .idle → step s = .refused .engineIdle) ∧
    (s.status = .done → step s = .refused .runEnded) ∧
    (s.status = .fault → s.fault.code = .unknownOpcode →
      step s = .fault (.unknownOpcode s.fault.step s.fault.opcode s.fault.argument)) ∧
    (s.status = .fault → s.fault.code = .stackUnderflow →
      step s = .fault (.stackUnderflow s.fault.step s.fault.opcode s.fault.argument)) ∧
    (s.status = .fault → s.fault.code = .addressOutOfRange →
      step s = .fault (.addressOutOfRange s.fault.step s.fault.opcode s.fault.argument s.fault.info)) ∧
    (s.status = .fault → s.fault.code = .arithmeticOverflow →
      step s = .fault (.arithmeticOverflow s.fault.step s.fault.opcode s.fault.argument)) ∧
    (s.status = .fault → s.fault.code = .stackOverflow →
      step s = .fault (.stackOverflow s.fault.step s.fault.opcode s.fault.argument))

/-- 40_engine_cycle.md R106: a completed instruction appends its entry with the stack after its writes, adds 1 to `step`
and 5 to `pc` and stays in `RUN`; a faulting one does none of the three. -/
def Obligations.CompletionBookkeeping : Prop :=
  ∀ (i : Instr) (s t : State), s.status = .run → exec i s = .next t →
    (t.status = .run ∧ t.trace = s.trace ++ [⟨i.opcode, i.argument, t.stack⟩] ∧ t.stepCount = s.stepCount + 1 ∧
      t.pc = s.pc + 5) ∨
    (t.status = .fault ∧ t.trace = s.trace ∧ t.stepCount = s.stepCount ∧ t.pc = s.pc)

/-- 40_engine_cycle.md R112: after every completed instruction the next `pc` is `pc + 5`; nothing else moves it. -/
def Obligations.NoControlTransfer : Prop :=
  ∀ s t : State, step s = .next t → (t.status = .run → t.pc = s.pc + 5) ∧ (t.status ≠ .run → t.pc = s.pc)

/-- 20_memory.md R63: no step changes the program store, no host operation changes it while `status = RUN`, and the fetch
does not depend on the data memory. -/
def Obligations.ProgramStoreIsNeverWritten : Prop :=
  (∀ s t : State, EngineSteps s t → t.prog = s.prog ∧ t.progLoaded = s.progLoaded ∧ t.params = s.params) ∧
  (∀ (s t : State) (op : HostOp) (r : HostReply), s.status = .run → hostOp op s = .ok (t, r) → t.prog = s.prog) ∧
  (∀ (s : State) (m : Memory), ({ s with mem := m } : State).fetchInstr = s.fetchInstr)

/-! ## The instructions -/

/-- 41_load_constant.md R120. -/
def Obligations.LoadConstantMeaning : Prop :=
  ∀ (arg : Argument) (s : State),
    EncodedAs (.loadConstant arg) 0x20 ∧
    (s.params.stackDepth = .finite s.stack.length → Enters .stackOverflow 0 (.loadConstant arg) s) ∧
    (s.params.stackDepth ≠ .finite s.stack.length →
      ∃ t, exec (.loadConstant arg) s = .next t ∧ Completes (.loadConstant arg) s t ∧
        t.stack = s.stack ++ [(arg.toNat : Int)] ∧ t.mem = s.mem ∧ t.rv = s.rv)

/-- 42_memory_access.md R125. -/
def Obligations.LoadFromMemoryMeaning : Prop :=
  ∀ (arg : Argument) (s : State),
    EncodedAs (.loadFromMemory arg) 0xE0 ∧
    (s.stack = [] → Enters .stackUnderflow 0 (.loadFromMemory arg) s) ∧
    (∀ r addr, s.stack = r ++ [addr] → addr < 0 ∨ 10000 ≤ addr →
      Enters .addressOutOfRange addr (.loadFromMemory arg) s) ∧
    (∀ r addr, s.stack = r ++ [addr] → 0 ≤ addr → addr < 10000 →
      ∃ t, exec (.loadFromMemory arg) s = .next t ∧ Completes (.loadFromMemory arg) s t ∧
        t.stack = r ++ [s.mem.read addr.toNat] ∧ t.mem = s.mem ∧ t.rv = s.rv)

/-- 42_memory_access.md R126. The premise `mem.wf` is an invariant of every run (`RunInvariantKeptByStep`). -/
def Obligations.StoreToMemoryMeaning : Prop :=
  ∀ (arg : Argument) (s : State), s.mem.wf = true →
    EncodedAs (.storeToMemory arg) 0x40 ∧
    (s.stack = [] → Enters .stackUnderflow 0 (.storeToMemory arg) s) ∧
    (∀ r v, s.stack = r ++ [v] → 10000 ≤ arg.toNat →
      Enters .addressOutOfRange arg.toNat (.storeToMemory arg) s) ∧
    (∀ r v, s.stack = r ++ [v] → arg.toNat < 10000 →
      ∃ t, exec (.storeToMemory arg) s = .next t ∧ Completes (.storeToMemory arg) s t ∧ t.stack = r ∧
        (∀ a, t.mem.read a = if a = arg.toNat then v else s.mem.read a) ∧ t.rv = s.rv)

/-- 43_multiply.md R135 and R136: the exact product on the stack, in the cell and at the end of the result vector. The
premise `mem.wf` is an invariant of every run (`RunInvariantKeptByStep`). -/
def Obligations.MultiplyMeaning : Prop :=
  ∀ (arg : Argument) (s : State), s.mem.wf = true →
    EncodedAs (.multiply arg) 0x60 ∧
    (s.stack = [] → Enters .stackUnderflow 0 (.multiply arg) s) ∧
    (∀ r v, s.stack = r ++ [v] → 10000 ≤ arg.toNat → Enters .addressOutOfRange arg.toNat (.multiply arg) s) ∧
    (∀ r v, s.stack = r ++ [v] → arg.toNat < 10000 → ¬ Fits s.params (v * s.mem.read arg.toNat) →
      Enters .arithmeticOverflow 0 (.multiply arg) s) ∧
    (∀ r v, s.stack = r ++ [v] → arg.toNat < 10000 → Fits s.params (v * s.mem.read arg.toNat) →
      ∃ t, exec (.multiply arg) s = .next t ∧ Completes (.multiply arg) s t ∧
        t.stack = r ++ [v * s.mem.read arg.toNat] ∧
        (∀ a, t.mem.read a = if a = arg.toNat then v * s.mem.read arg.toNat else s.mem.read a) ∧
        t.rv = s.rv ++ [v * s.mem.read arg.toNat])

/-- 60_exceptions.md R162: the four illegal opcodes raise `UnknownOpcode` in every state, and no other instruction does. -/
def Obligations.IllegalOpcodeRaisesUnknownOpcode : Prop :=
  (∀ (arg : Argument) (s : State),
    Enters .unknownOpcode 0 (.illegal0 arg) s ∧ Enters .unknownOpcode 0 (.illegal4 arg) s ∧
    Enters .unknownOpcode 0 (.illegal5 arg) s ∧ Enters .unknownOpcode 0 (.illegal6 arg) s) ∧
  (∀ (i : Instr) (s t : State), s.status = .run → exec i s = .next t → t.status = .fault →
    (t.fault.code = .unknownOpcode ↔ i.opcode ≠ 1 ∧ i.opcode ≠ 2 ∧ i.opcode ≠ 3 ∧ i.opcode ≠ 7))

/-- Two `MULTIPLY a` in a row with nothing pushed in between square the product (43_multiply.md section 1, corner case g).
The premise `mem.wf` is an invariant of every run. -/
def Obligations.SecondMultiplySquares : Prop :=
  ∀ (arg : Argument) (s : State) (r : List Int) (v : Int), s.mem.wf = true → s.stack = r ++ [v] → arg.toNat < 10000 →
    Fits s.params (v * s.mem.read arg.toNat) → Fits s.params ((v * s.mem.read arg.toNat) ^ 2) →
    ∃ t u, exec (.multiply arg) s = .next t ∧ exec (.multiply arg) t = .next u ∧
      u.stack = r ++ [(v * s.mem.read arg.toNat) ^ 2] ∧ u.mem.read arg.toNat = (v * s.mem.read arg.toNat) ^ 2 ∧
      u.rv = s.rv ++ [v * s.mem.read arg.toNat, (v * s.mem.read arg.toNat) ^ 2] ∧ u.pc = s.pc + 10

/-- A read returns the most recent write (20_memory.md section 5, 70_reset_and_hazards.md section 2): the value a
`STORE_TO_MEMORY a` stored is what a later `LOAD_FROM_MEMORY` of cell `a` pushes, and the factor a later `MULTIPLY a`
takes, in any state with that memory. -/
def Obligations.LoadAndMultiplySeeTheLastStore : Prop :=
  ∀ (arg x : Argument) (s t u : State) (r r' : List Int) (v w : Int), s.mem.wf = true → s.stack = r ++ [v] →
    arg.toNat < 10000 → exec (.storeToMemory arg) s = .next t → u.mem = t.mem →
    (u.stack = r' ++ [(arg.toNat : Int)] → ∃ q, exec (.loadFromMemory x) u = .next q ∧ q.stack = r' ++ [v]) ∧
    (u.stack = r' ++ [w] → Fits u.params (w * v) →
      ∃ q, exec (.multiply arg) u = .next q ∧ q.stack = r' ++ [w * v])

/-- The frame of the forms that store nothing, `LOAD_CONSTANT`, `LOAD_FROM_MEMORY` and the illegal opcodes: every cell, the
result vector, the program and the parameters stay; the fault record and `status` stay unless a fault is entered; the
entries under the top stay (20_memory.md section 2, 60_exceptions.md section 2). -/
def Obligations.FrameOfNonStoringForms : Prop :=
  ∀ (i : Instr) (s t : State), i.opcode ≠ 2 → i.opcode ≠ 3 → exec i s = .next t →
    (∀ a, t.mem.read a = s.mem.read a) ∧ t.mem = s.mem ∧ t.rv = s.rv ∧ t.prog = s.prog ∧
      t.progLoaded = s.progLoaded ∧ t.params = s.params ∧
      (t.trace ≠ s.trace → t.fault = s.fault ∧ t.status = s.status) ∧
      s.stack.dropLast <+: t.stack ∧ (i.opcode ≠ 7 → s.stack <+: t.stack)

/-- The frame of `STORE_TO_MEMORY` and `MULTIPLY`: the stored cell is the one the direct address gives, and every other cell
reads as before, all of them when the instruction faults; `STORE_TO_MEMORY` leaves the result vector, `MULTIPLY` only
appends to it; the entries under the top stay; the program and the parameters stay; the fault record and `status` stay
unless a fault is entered. -/
def Obligations.FrameOfStoringForms : Prop :=
  ∀ (i : Instr) (s t : State), i.opcode = 2 ∨ i.opcode = 3 → exec i s = .next t →
    (∀ n, directAddress i.argument = some n → ∀ a, a ≠ n → t.mem.read a = s.mem.read a) ∧
    (directAddress i.argument = none → t.mem = s.mem) ∧
    (t.trace = s.trace → t.mem = s.mem ∧ t.stack = s.stack ∧ t.rv = s.rv) ∧
    (i.opcode = 2 → t.rv = s.rv) ∧ (i.opcode = 3 → t.rv.length ≤ s.rv.length + 1 ∧ s.rv <+: t.rv) ∧
    s.stack.dropLast <+: t.stack ∧ t.prog = s.prog ∧ t.progLoaded = s.progLoaded ∧ t.params = s.params ∧
    (t.trace ≠ s.trace → t.fault = s.fault ∧ t.status = s.status)

/-! ## The faults -/

/-- 60_exceptions.md R166: fault entry writes the record and `status` and nothing else, it is precise, and the engine has no
further step. -/
def Obligations.FaultEntryIsPrecise : Prop :=
  ∀ (i : Instr) (s t : State), s.status = .run → exec i s = .next t → t.status = .fault →
    FaultEntered t.fault.code t.fault.info i s t ∧ t.fault.code ≠ .none ∧
    (t.fault.code ≠ .addressOutOfRange → t.fault.info = 0) ∧
    (t.fault.code = .addressOutOfRange →
      (i.opcode = 7 → s.stack.getLast? = some t.fault.info) ∧
      (i.opcode ≠ 7 → t.fault.info = (i.argument.toNat : Int))) ∧
    (∀ u, step t ≠ .next u)

/-- 60_exceptions.md R163: opcodes 7, 2 and 3 on an empty stack, whatever the argument, and nothing else, raise
`StackUnderflow`. -/
def Obligations.StackUnderflowOnEmptyStack : Prop :=
  (∀ (i : Instr) (s : State), i.opcode = 7 ∨ i.opcode = 2 ∨ i.opcode = 3 → s.stack = [] →
    Enters .stackUnderflow 0 i s) ∧
  (∀ (i : Instr) (s t : State), s.status = .run → exec i s = .next t → t.status = .fault →
    t.fault.code = .stackUnderflow → (i.opcode = 7 ∨ i.opcode = 2 ∨ i.opcode = 3) ∧ s.stack = [])

/-- The address check: `AddressOutOfRange` is raised exactly when the stack check has passed and the effective address is
not in `0 .. 9999`; no cell is read or written (20_memory.md section 2, 60_exceptions.md section 1). -/
def Obligations.AddressOutOfRangeExactly : Prop :=
  ∀ (i : Instr) (s : State) (r : List Int) (v : Int), s.stack = r ++ [v] →
    (i.opcode = 7 → (v < 0 ∨ 10000 ≤ v ↔ Enters .addressOutOfRange v i s)) ∧
    (i.opcode = 2 ∨ i.opcode = 3 → (10000 ≤ i.argument.toNat ↔ Enters .addressOutOfRange i.argument.toNat i s)) ∧
    (∀ a, Enters .addressOutOfRange a i s → i.opcode = 7 ∨ i.opcode = 2 ∨ i.opcode = 3)

/-- 60_exceptions.md R165: an instruction enters `ArithmeticOverflow` and `StackOverflow` exactly on their grounds, in every
state; `INF` excludes each; and no program of at most `STACK_DEPTH` instructions overflows the stack (in a state of a run,
10_state.md R34). -/
def Obligations.FaultsOfFiniteLimits : Prop :=
  (∀ (i : Instr) (s : State) (info : Int),
    (Enters .arithmeticOverflow info i s ↔ info = 0 ∧ i.opcode = 3 ∧ i.argument.toNat < 10000 ∧
      ∃ r v, s.stack = r ++ [v] ∧ ¬ Fits s.params (v * s.mem.read i.argument.toNat)) ∧
    (Enters .stackOverflow info i s ↔ info = 0 ∧ i.opcode = 1 ∧ s.params.stackDepth = .finite s.stack.length) ∧
    (s.params.cellBits = .inf → ¬ Enters .arithmeticOverflow info i s) ∧
    (s.params.stackDepth = .inf → ¬ Enters .stackOverflow info i s)) ∧
  (∀ (s t : State) (d : Nat), RunInv s → s.status = .run → s.params.stackDepth = .finite d → s.prog.length / 5 ≤ d →
    step s = .next t → t.fault.code ≠ .stackOverflow)

/-- The priority of the checks, with completion exactly when none fails (60_exceptions.md section 2). The grounds exclude
each other, completion's among them, and together they cover every instruction in every state. -/
def Obligations.FaultPriorityIsComplete : Prop :=
  ∀ (i : Instr) (s : State),
    (i.known = false ∧ Enters .unknownOpcode 0 i s) ∨
    ((i.opcode = 7 ∨ i.opcode = 2 ∨ i.opcode = 3) ∧ s.stack = [] ∧ Enters .stackUnderflow 0 i s) ∨
    (i.opcode = 7 ∧ (∃ r a, s.stack = r ++ [a] ∧ (a < 0 ∨ 10000 ≤ a) ∧ Enters .addressOutOfRange a i s)) ∨
    ((i.opcode = 2 ∨ i.opcode = 3) ∧ s.stack ≠ [] ∧ 10000 ≤ i.argument.toNat ∧
      Enters .addressOutOfRange i.argument.toNat i s) ∨
    (i.opcode = 3 ∧ i.argument.toNat < 10000 ∧
      (∃ r v, s.stack = r ++ [v] ∧ ¬ Fits s.params (v * s.mem.read i.argument.toNat)) ∧
      Enters .arithmeticOverflow 0 i s) ∨
    (i.opcode = 1 ∧ s.params.stackDepth = .finite s.stack.length ∧ Enters .stackOverflow 0 i s) ∨
    (i.known = true ∧ (∃ t, exec i s = .next t ∧ Completes i s t) ∧
      (i.opcode ≠ 1 → s.stack ≠ []) ∧ (i.opcode = 2 ∨ i.opcode = 3 → i.argument.toNat < 10000) ∧
      (i.opcode = 7 → ∃ r a, s.stack = r ++ [a] ∧ 0 ≤ a ∧ a < 10000) ∧
      (i.opcode = 3 → ∃ r v, s.stack = r ++ [v] ∧ Fits s.params (v * s.mem.read i.argument.toNat)) ∧
      (i.opcode = 1 → s.params.stackDepth ≠ .finite s.stack.length))

/-- 60_exceptions.md R169: a faulted engine has no step, and the only host operation that changes its status or its record is
`Start`, which begins from a fully re-initialised state. -/
def Obligations.OnlyStartLeavesFault : Prop :=
  ∀ s : State, s.status = .fault →
    (∀ t, step s ≠ .next t) ∧
    (∀ op t r, hostOp op s = .ok (t, r) →
      (op ≠ .start ∧ t.status = .fault ∧ t.fault = s.fault) ∨
      (op = .start ∧ t.status = .run ∧ t.fault = .cleared ∧ t.pc = 0 ∧ t.stepCount = 0 ∧ t.stack = [] ∧
        (∀ a, t.mem.read a = 0) ∧ t.rv = [] ∧ t.trace = []))

/-- The numbers of `status` and of the fault codes (10_state.md section 3, 60_exceptions.md section 1). -/
def Obligations.StatusAndFaultCodeNumbers : Prop :=
  [Status.idle, .run, .done, .fault].map Status.bits = [0, 1, 2, 3] ∧
  [FaultCode.none, .unknownOpcode, .stackUnderflow, .addressOutOfRange, .arithmeticOverflow, .stackOverflow].map
    FaultCode.bits = [0, 1, 2, 3, 4, 5]

/-! ## Invariants and runs -/

/-- The invariants of a run (10_state.md section 4, an inference the spec marks as its own), from every state that meets
them. -/
def Obligations.RunInvariantKeptByStep : Prop :=
  ∀ s t : State, RunInv s → step s = .next t → RunInv t

/-- The logs say what happened: kept by every step, in states of a run. -/
def Obligations.TraceInvariantKeptByStep : Prop :=
  ∀ s t : State, RunInv s → TraceInv s → step s = .next t → TraceInv t

/-- No value exceeds `c^(2^k)` after `k` completed `MULTIPLY` instructions (43_multiply.md section 2, an inference the spec
marks as its own): kept by every step, in states of a run. -/
def Obligations.GrowthBoundKeptByStep : Prop :=
  ∀ s t : State, RunInv s → GrowthInv s → step s = .next t → GrowthInv t

/-- `Start` establishes the three invariants for any legal parameters, and the state after reset meets the first. That the
unspecified fields of `State.reset` meet it rests on the values the model names (log entry 1). -/
def Obligations.StartEstablishesInvariants : Prop :=
  (∀ (s t : State) (r : HostReply), s.params.valid = true → hostOp .start s = .ok (t, r) →
    RunInv t ∧ TraceInv t ∧ GrowthInv t) ∧
  RunInv State.reset

/-- What engine and host keep together, for any parameters (10_state.md section 4): power-on establishes it, every step
keeps it and every host operation keeps it, from every state that meets it; so it holds in every reachable state. That
power-on establishes it rests on the values the model names (log entry 1). -/
def Obligations.SystemInvariant : Prop :=
  ∀ p : Params,
    SystemInv p (State.powerOn p) ∧
    (∀ s t : State, SystemInv p s → step s = .next t → SystemInv p t) ∧
    (∀ (s t : State) (op : HostOp) (r : HostReply), SystemInv p s → hostOp op s = .ok (t, r) → SystemInv p t) ∧
    (∀ s : State, Reachable p s → SystemInv p s)

/-- Every run ends: from any state in `RUN`, within `floor((L - pc) / 5) + 1` steps, and so from `Start` within
`floor(L / 5) + 1` (40_engine_cycle.md section 3). -/
def Obligations.EveryRunEnds : Prop :=
  (∀ s : State, s.status = .run → ∃ k t, k ≤ (s.prog.length - s.pc) / 5 + 1 ∧ core.run k s = .next t ∧
    t.ended = true) ∧
  (∀ (s₀ s : State) (r : HostReply), hostOp .start s₀ = .ok (s, r) → ∃ k t, k ≤ s₀.prog.length / 5 + 1 ∧
    core.run k s = .next t ∧ t.ended = true)

/-- 40_engine_cycle.md R110: in a run, `DONE` means that every complete record has been executed, `FAULT` that the run went
wrong at `FAULT_STEP`, and from `RUN` with every record executed the next step is `DONE`. -/
def Obligations.DoneMeansEveryRecordExecuted : Prop :=
  ∀ s₀ t : State, s₀.params.valid = true → RunReaches s₀ t →
    (t.ended = true ↔ t.status = .done ∨ t.status = .fault) ∧ (t.final = true ↔ t.status = .done) ∧
    (t.status = .done → t.stepCount = t.prog.length / 5 ∧ t.pc = 5 * t.stepCount ∧ t.trace.length = t.stepCount) ∧
    (t.status = .run → t.stepCount = t.prog.length / 5 → ∃ u, step t = .next u ∧ u.status = .done) ∧
    (t.status = .fault → t.stepCount < t.prog.length / 5 ∧ t.fault.step = t.stepCount)

/-- The state in `FAULT`, and what the host may read there (60_exceptions.md section 2, an inference the spec marks as its
own). -/
def Obligations.FaultedRunState : Prop :=
  ∀ s₀ t : State, s₀.params.valid = true → RunReaches s₀ t → t.status = .fault →
    t.pc = 5 * t.fault.step ∧ t.stepCount = t.fault.step ∧ t.trace.length = t.fault.step ∧
    hostOp .readStatus t = .ok (t, .status .fault (some t.fault)) ∧ hostOp .readTrace t = .ok (t, .trace t.trace) ∧
    hostOp .readRV t = .ok (t, .rv t.rv) ∧ (∀ first last, hostOp (.readOut first last) t = .error .runNotDone)

/-- The result of a run does not depend on what happened before its `Start`, and the same loaded program runs again without
reloading, to the same result (70_reset_and_hazards.md section 1, an inference the spec marks as its own). -/
def Obligations.NoLeakageBetweenRuns : Prop :=
  (∀ s₁ s₂ t₁ t₂ : State, s₁.prog = s₂.prog → s₁.params = s₂.params → hostOp .start s₁ = .ok (t₁, .accepted) →
    hostOp .start s₂ = .ok (t₂, .accepted) → t₁ = t₂) ∧
  (∀ s₀ s t : State, hostOp .start s₀ = .ok (s, .accepted) → EngineSteps s t → t.ended = true →
    hostOp .start t = .ok (s, .accepted))

/-- Padding bytes, unused bits and the trailing partial record never influence a run: with a program that has the same
records, a step in a state of a run gives the same outcome but for the program (20_memory.md section 1, 30_encoding.md
section 4). -/
def Obligations.IgnoredBytesDoNotInfluenceTheRun : Prop :=
  ∀ (s : State) (q : List Byte), RunInv s → SameRecords s.prog q →
    step (s.withProg q) = mapNext (fun t => t.withProg q) (step s)

/-- 43_multiply.md R137: a product is the exact one or the fault, never wrapped, saturated or truncated; and over whole runs
a machine with finite `CELL_BITS` (and finite `STACK_DEPTH`) agrees with the unbounded reference on every run in which it
does not fault. -/
def Obligations.AgreesWithTheUnboundedReference : Prop :=
  (∀ (arg : Argument) (s : State) (r : List Int) (v : Int), s.stack = r ++ [v] → arg.toNat < 10000 →
    ∃ t, exec (.multiply arg) s = .next t ∧
      (Fits s.params (v * s.mem.read arg.toNat) → t.stack = r ++ [v * s.mem.read arg.toNat]) ∧
      (¬ Fits s.params (v * s.mem.read arg.toNat) →
        FaultEntered .arithmeticOverflow 0 (.multiply arg) s t)) ∧
  (∀ (k : Nat) (s t : State), core.run k s = .next t → t.status ≠ .fault →
    core.run k s.unbounded = .next t.unbounded)

/-- With legal parameters the first `MULTIPLY` of a run never overflows (43_multiply.md section 2, an inference the spec
marks as its own). -/
def Obligations.FirstMultiplyNeverOverflows : Prop :=
  ∀ (arg : Argument) (s : State), RunInv s → GrowthInv s → s.rv = [] →
    ¬ Enters .arithmeticOverflow 0 (.multiply arg) s

/-! ## The host and reset -/

/-- 70_reset_and_hazards.md R190: after power-on the status is `IDLE`, there the engine has no step, and nothing
unspecified can be observed: only `LoadProgram`, `Start` and `ReadStatus` have a move, and after them no field but the
program and the parameters depends on the state before. -/
def Obligations.PowerOnIsIdle : Prop :=
  (∀ p : Params, (State.powerOn p).status = .idle) ∧
  (∀ s : State, s.status = .idle →
    (∀ t, step s ≠ .next t) ∧
    (∀ op t r, hostOp op s = .ok (t, r) → (∃ bytes, op = .loadProgram bytes) ∨ op = .start ∨ op = .readStatus) ∧
    (∀ t r, hostOp .start s = .ok (t, r) → ∀ s' : State, s'.prog = s.prog → s'.progLoaded = s.progLoaded →
      s'.params = s.params → s'.status = .idle → hostOp .start s' = .ok (t, r)) ∧
    hostOp .readStatus s = .ok (s, .status .idle none))

/-- 70_reset_and_hazards.md R191: when `Start` has a move, and every field after it. -/
def Obligations.StartInitialisesTheRun : Prop :=
  ∀ s : State,
    ((∃ t r, hostOp .start s = .ok (t, r)) ↔ s.status ≠ .run ∧ s.progLoaded = true) ∧
    (∀ t r, hostOp .start s = .ok (t, r) →
      (∀ a, t.mem.read a = 0) ∧ t.stack = [] ∧ t.rv = [] ∧ t.trace = [] ∧ t.pc = 0 ∧ t.stepCount = 0 ∧
      t.fault.code = .none ∧ t.fault.step = 0 ∧ t.fault.opcode = 0 ∧ t.fault.argument = 0 ∧ t.fault.info = 0 ∧
      t.status = .run ∧ t.prog = s.prog ∧ t.progLoaded = s.progLoaded ∧ t.params = s.params)

/-- 10_state.md R35: each host operation's moves and effects. -/
def Obligations.HostOperations : Prop :=
  ∀ s : State,
    (∀ bytes, (∃ t r, hostOp (.loadProgram bytes) s = .ok (t, r)) ↔
      s.status ≠ .run ∧ ∀ n, s.params.progMaxBytes = .finite n → bytes.length ≤ n) ∧
    (∀ bytes t r, hostOp (.loadProgram bytes) s = .ok (t, r) → t.prog = bytes ∧ t.progLoaded = true ∧
      t.params = s.params ∧ t.status = s.status ∧ t.pc = s.pc ∧ t.stepCount = s.stepCount ∧ t.stack = s.stack ∧
      t.mem = s.mem ∧ t.rv = s.rv ∧ t.trace = s.trace ∧ t.fault = s.fault) ∧
    ((∃ t r, hostOp .start s = .ok (t, r)) ↔ s.status ≠ .run ∧ s.progLoaded = true) ∧
    (∀ t r, hostOp .start s = .ok (t, r) → t.status = .run) ∧
    hostOp .readStatus s = .ok (s, .status s.status (if s.status = .fault then some s.fault else none)) ∧
    (s.status = .done ∨ s.status = .fault →
      hostOp .readTrace s = .ok (s, .trace s.trace) ∧ hostOp .readRV s = .ok (s, .rv s.rv)) ∧
    (¬ (s.status = .done ∨ s.status = .fault) →
      hostOp .readTrace s = .error .runNotEnded ∧ hostOp .readRV s = .error .runNotEnded) ∧
    (∀ first last, (∃ t r, hostOp (.readOut first last) s = .ok (t, r)) ↔ s.status = .done) ∧
    (∀ first last t r, hostOp (.readOut first last) s = .ok (t, r) → t = s)

/-- While a run is in progress the host can only read the status (60_exceptions.md section 3, 70_reset_and_hazards.md
section 2). -/
def Obligations.HostOnlyReadsStatusDuringRun : Prop :=
  ∀ (s t : State) (op : HostOp) (r : HostReply), s.status = .run → hostOp op s = .ok (t, r) →
    op = .readStatus ∧ t = s ∧ r = .status .run none

/-- 44_host_readout.md R145 and R146: the slice `[start, end)` in ascending order for bounds in `0 .. 10000`, else
`RangeError`; the state stays, so another `ReadOut` may follow. -/
def Obligations.ReadOutSliceOrRangeError : Prop :=
  ∀ (s : State) (first last : Int), s.status = .done →
    (0 ≤ first → first ≤ last → last ≤ 10000 →
      ∃ values, hostOp (.readOut first last) s = .ok (s, .slice values) ∧ (values.length : Int) = last - first ∧
        ∀ k : Nat, (k : Int) < last - first → values[k]? = some (s.mem.read (first + k).toNat)) ∧
    (first < 0 ∨ first > 10000 ∨ last < 0 ∨ last > 10000 ∨ first > last →
      hostOp (.readOut first last) s = .ok (s, .rangeError))

/-- The reference ports (10_state.md section 5, informative): a completed instruction pulses `trace_valid` with its entry, a
completed `MULTIPLY` pulses `rv_valid` with its result, nothing else pulses either. -/
def Obligations.PortsPulseOncePerCompletion : Prop :=
  ∀ s t : State, step s = .next t →
    (t.status = .run → (pulses s t).trace = some ⟨s.fetchInstr.opcode, s.fetchInstr.argument, t.stack⟩ ∧
      (pulses s t).rv = if s.fetchInstr.opcode = 3 then t.stack.getLast? else none) ∧
    (t.status ≠ .run → pulses s t = ⟨none, none⟩)
end

