-- ==== Sys2Proof/Laws/Decode.lean ====
section
/-! SUPPORT. The small lemmas of the decoder and the encoder: what the fields of a packed word are, and that the opcode map
and `Instr.opcode`, `Instr.argument` are inverse. -/

namespace Sys2Proof.Laws

open Sys2Proof

/-- Every instruction is well-formed: the 24-bit type of the operand ensures the range (30_encoding.md R75). -/
theorem wellFormed_of_type (i : Instr) : i.wellFormed = true := by
  have := i.argument.isLt
  simp only [Instr.wellFormed, decide_eq_true_eq]
  omega

/-- The little-endian word as a number (20_memory.md R55). -/
theorem word_toNat (b : InstrBytes) :
    b.word.toNat = b.b0.toNat + 256 * b.b1.toNat + 65536 * b.b2.toNat + 16777216 * b.b3.toNat := by
  have h0 := b.b0.isLt
  have h1 := b.b1.isLt
  have h2 := b.b2.isLt
  simp only [InstrBytes.word, BitVec.toNat_append]
  rw [← Nat.shiftLeft_add_eq_or_of_lt h2, ← Nat.shiftLeft_add_eq_or_of_lt h1, ← Nat.shiftLeft_add_eq_or_of_lt h0]
  simp only [Nat.shiftLeft_eq]
  omega

theorem wordOpcode_toNat (w : Word) : (wordOpcode w).toNat = w.toNat / 2 ^ 29 := by
  have hw := w.isLt
  have h := Nat.and_two_pow_sub_one_eq_mod (w.toNat / 2 ^ 29) 3
  simp only [wordOpcode, BitVec.toNat_setWidth, BitVec.toNat_and, BitVec.toNat_ushiftRight, Nat.shiftRight_eq_div_pow,
    BitVec.toNat_ofNat] at *
  norm_num at *
  omega

theorem wordArgument_toNat (w : Word) : (wordArgument w).toNat = w.toNat % 2 ^ 24 := by
  have h := Nat.and_two_pow_sub_one_eq_mod w.toNat 24
  simp only [wordArgument, BitVec.toNat_setWidth, BitVec.toNat_and, BitVec.toNat_ofNat] at *
  norm_num at *
  omega

/-- The packed word as a number (30_encoding.md R71). -/
theorem packWord_toNat (op : Opcode) (arg : Argument) :
    (packWord op arg).toNat = op.toNat * 2 ^ 29 + arg.toNat := by
  have ho := op.isLt
  have ha := arg.isLt
  have h := Nat.shiftLeft_add_eq_or_of_lt (b := arg.toNat) (i := 29) (by omega) op.toNat
  simp only [packWord, BitVec.toNat_or, BitVec.toNat_shiftLeft, BitVec.toNat_setWidth]
  rw [Nat.mod_eq_of_lt (a := op.toNat) (by omega), Nat.mod_eq_of_lt (a := arg.toNat) (by omega),
    Nat.mod_eq_of_lt (a := op.toNat <<< 29) (by rw [Nat.shiftLeft_eq]; omega), ← h, Nat.shiftLeft_eq]

/-- The fields of a packed word (30_encoding.md R71). -/
theorem wordOpcode_packWord (op : Opcode) (arg : Argument) : wordOpcode (packWord op arg) = op := by
  have ha := arg.isLt
  apply BitVec.eq_of_toNat_eq
  rw [wordOpcode_toNat, packWord_toNat]
  omega

theorem wordArgument_packWord (op : Opcode) (arg : Argument) : wordArgument (packWord op arg) = arg := by
  have ha := arg.isLt
  apply BitVec.eq_of_toNat_eq
  rw [wordArgument_toNat, packWord_toNat]
  omega

/-- Cutting a word into four bytes and joining them gives the word. -/
theorem word_of_bytes (w : Word) (p : Byte) :
    InstrBytes.word ⟨w.extractLsb' 0 8, w.extractLsb' 8 8, w.extractLsb' 16 8, w.extractLsb' 24 8, p⟩ = w := by
  have hw := w.isLt
  apply BitVec.eq_of_toNat_eq
  simp only [word_toNat, BitVec.extractLsb'_toNat, Nat.shiftRight_eq_div_pow]
  omega

@[simp] theorem ofFields_opcode (op : Opcode) (arg : Argument) : (Instr.ofFields op arg).opcode = op := by
  obtain ⟨f⟩ := op
  fin_cases f <;> rfl

@[simp] theorem ofFields_argument (op : Opcode) (arg : Argument) : (Instr.ofFields op arg).argument = arg := by
  obtain ⟨f⟩ := op
  fin_cases f <;> rfl

@[simp] theorem ofFields_of_instr (i : Instr) : Instr.ofFields i.opcode i.argument = i := by
  cases i <;> rfl

/-- The opcode of decoded bytes is the decoded opcode. -/
@[simp] theorem decodeBytes_opcode (b : InstrBytes) : (decodeBytes b).opcode = (decodeFields b).1 := by
  simp [decodeBytes]

@[simp] theorem decodeBytes_argument (b : InstrBytes) : (decodeBytes b).argument = (decodeFields b).2 := by
  simp [decodeBytes]

/-- An encoding is always five bytes (30_encoding.md R70, R84). -/
@[simp] theorem encodeFields_length (op : Opcode) (arg : Argument) : (encodeFields op arg).length = 5 := rfl

/-- The decoder rejects exactly the sequences of fewer than five bytes (40_engine_cycle.md R101). -/
theorem decode_eq_error_iff (l : List Byte) : decode l = .error .fewerThanFiveBytes ↔ l.length < 5 := by
  match l with
  | [] => simp [decode]
  | [_] => simp [decode]
  | [_, _] => simp [decode]
  | [_, _, _] => simp [decode]
  | [_, _, _, _] => simp [decode]
  | _ :: _ :: _ :: _ :: _ :: _ => simp [decode]

end Sys2Proof.Laws
end

