-- ==== Sys2Proof/Laws/State.lean ====
section
/-! SUPPORT. One lemma per field per update of State, each true by rfl, so that no later proof unfolds a record update. -/

namespace Sys2Proof.Machine

open Sys2Proof

variable (s : State)

@[simp] theorem State.push_params (v : Int) : (s.push v).params = s.params := rfl
@[simp] theorem State.push_status (v : Int) : (s.push v).status = s.status := rfl
@[simp] theorem State.push_pc (v : Int) : (s.push v).pc = s.pc := rfl
@[simp] theorem State.push_stepCount (v : Int) : (s.push v).stepCount = s.stepCount := rfl
@[simp] theorem State.push_stack (v : Int) : (s.push v).stack = s.stack ++ [v] := rfl
@[simp] theorem State.push_mem (v : Int) : (s.push v).mem = s.mem := rfl
@[simp] theorem State.push_prog (v : Int) : (s.push v).prog = s.prog := rfl
@[simp] theorem State.push_progLoaded (v : Int) : (s.push v).progLoaded = s.progLoaded := rfl
@[simp] theorem State.push_rv (v : Int) : (s.push v).rv = s.rv := rfl
@[simp] theorem State.push_trace (v : Int) : (s.push v).trace = s.trace := rfl
@[simp] theorem State.push_fault (v : Int) : (s.push v).fault = s.fault := rfl

@[simp] theorem State.pop_params : s.pop.params = s.params := rfl
@[simp] theorem State.pop_status : s.pop.status = s.status := rfl
@[simp] theorem State.pop_pc : s.pop.pc = s.pc := rfl
@[simp] theorem State.pop_stepCount : s.pop.stepCount = s.stepCount := rfl
@[simp] theorem State.pop_stack : s.pop.stack = s.stack.dropLast := rfl
@[simp] theorem State.pop_mem : s.pop.mem = s.mem := rfl
@[simp] theorem State.pop_prog : s.pop.prog = s.prog := rfl
@[simp] theorem State.pop_progLoaded : s.pop.progLoaded = s.progLoaded := rfl
@[simp] theorem State.pop_rv : s.pop.rv = s.rv := rfl
@[simp] theorem State.pop_trace : s.pop.trace = s.trace := rfl
@[simp] theorem State.pop_fault : s.pop.fault = s.fault := rfl

@[simp] theorem State.memWrite_params (a : Nat) (v : Int) : (s.memWrite a v).params = s.params := rfl
@[simp] theorem State.memWrite_status (a : Nat) (v : Int) : (s.memWrite a v).status = s.status := rfl
@[simp] theorem State.memWrite_pc (a : Nat) (v : Int) : (s.memWrite a v).pc = s.pc := rfl
@[simp] theorem State.memWrite_stepCount (a : Nat) (v : Int) : (s.memWrite a v).stepCount = s.stepCount := rfl
@[simp] theorem State.memWrite_stack (a : Nat) (v : Int) : (s.memWrite a v).stack = s.stack := rfl
@[simp] theorem State.memWrite_mem (a : Nat) (v : Int) : (s.memWrite a v).mem = s.mem.write a v := rfl
@[simp] theorem State.memWrite_prog (a : Nat) (v : Int) : (s.memWrite a v).prog = s.prog := rfl
@[simp] theorem State.memWrite_progLoaded (a : Nat) (v : Int) : (s.memWrite a v).progLoaded = s.progLoaded := rfl
@[simp] theorem State.memWrite_rv (a : Nat) (v : Int) : (s.memWrite a v).rv = s.rv := rfl
@[simp] theorem State.memWrite_trace (a : Nat) (v : Int) : (s.memWrite a v).trace = s.trace := rfl
@[simp] theorem State.memWrite_fault (a : Nat) (v : Int) : (s.memWrite a v).fault = s.fault := rfl

@[simp] theorem State.appendResult_params (v : Int) : (s.appendResult v).params = s.params := rfl
@[simp] theorem State.appendResult_status (v : Int) : (s.appendResult v).status = s.status := rfl
@[simp] theorem State.appendResult_pc (v : Int) : (s.appendResult v).pc = s.pc := rfl
@[simp] theorem State.appendResult_stepCount (v : Int) : (s.appendResult v).stepCount = s.stepCount := rfl
@[simp] theorem State.appendResult_stack (v : Int) : (s.appendResult v).stack = s.stack := rfl
@[simp] theorem State.appendResult_mem (v : Int) : (s.appendResult v).mem = s.mem := rfl
@[simp] theorem State.appendResult_prog (v : Int) : (s.appendResult v).prog = s.prog := rfl
@[simp] theorem State.appendResult_progLoaded (v : Int) : (s.appendResult v).progLoaded = s.progLoaded := rfl
@[simp] theorem State.appendResult_rv (v : Int) : (s.appendResult v).rv = s.rv ++ [v] := rfl
@[simp] theorem State.appendResult_trace (v : Int) : (s.appendResult v).trace = s.trace := rfl
@[simp] theorem State.appendResult_fault (v : Int) : (s.appendResult v).fault = s.fault := rfl

@[simp] theorem State.completed_params (i : Instr) : (s.completed i).params = s.params := rfl
@[simp] theorem State.completed_status (i : Instr) : (s.completed i).status = s.status := rfl
@[simp] theorem State.completed_pc (i : Instr) : (s.completed i).pc = s.pc + 5 := rfl
@[simp] theorem State.completed_stepCount (i : Instr) : (s.completed i).stepCount = s.stepCount + 1 := rfl
@[simp] theorem State.completed_stack (i : Instr) : (s.completed i).stack = s.stack := rfl
@[simp] theorem State.completed_mem (i : Instr) : (s.completed i).mem = s.mem := rfl
@[simp] theorem State.completed_prog (i : Instr) : (s.completed i).prog = s.prog := rfl
@[simp] theorem State.completed_progLoaded (i : Instr) : (s.completed i).progLoaded = s.progLoaded := rfl
@[simp] theorem State.completed_rv (i : Instr) : (s.completed i).rv = s.rv := rfl
@[simp] theorem State.completed_trace (i : Instr) : (s.completed i).trace = s.trace ++ [⟨i.opcode, i.argument, s.stack⟩] :=
  rfl
@[simp] theorem State.completed_fault (i : Instr) : (s.completed i).fault = s.fault := rfl

@[simp] theorem State.faulted_params (c : FaultCode) (v : Int) (i : Instr) : (s.faulted c v i).params = s.params := rfl
@[simp] theorem State.faulted_status (c : FaultCode) (v : Int) (i : Instr) : (s.faulted c v i).status = .fault := rfl
@[simp] theorem State.faulted_pc (c : FaultCode) (v : Int) (i : Instr) : (s.faulted c v i).pc = s.pc := rfl
@[simp] theorem State.faulted_stepCount (c : FaultCode) (v : Int) (i : Instr) : (s.faulted c v i).stepCount = s.stepCount :=
  rfl
@[simp] theorem State.faulted_stack (c : FaultCode) (v : Int) (i : Instr) : (s.faulted c v i).stack = s.stack := rfl
@[simp] theorem State.faulted_mem (c : FaultCode) (v : Int) (i : Instr) : (s.faulted c v i).mem = s.mem := rfl
@[simp] theorem State.faulted_prog (c : FaultCode) (v : Int) (i : Instr) : (s.faulted c v i).prog = s.prog := rfl
@[simp] theorem State.faulted_progLoaded (c : FaultCode) (v : Int) (i : Instr) : (s.faulted c v i).progLoaded = s.progLoaded :=
  rfl
@[simp] theorem State.faulted_rv (c : FaultCode) (v : Int) (i : Instr) : (s.faulted c v i).rv = s.rv := rfl
@[simp] theorem State.faulted_trace (c : FaultCode) (v : Int) (i : Instr) : (s.faulted c v i).trace = s.trace := rfl
@[simp] theorem State.faulted_fault (c : FaultCode) (v : Int) (i : Instr) : (s.faulted c v i).fault = ⟨c, s.stepCount, i.opcode, i.argument, v⟩ :=
  rfl

@[simp] theorem State.startRun_params : s.startRun.params = s.params := rfl
@[simp] theorem State.startRun_status : s.startRun.status = .run := rfl
@[simp] theorem State.startRun_pc : s.startRun.pc = 0 := rfl
@[simp] theorem State.startRun_stepCount : s.startRun.stepCount = 0 := rfl
@[simp] theorem State.startRun_stack : s.startRun.stack = [] := rfl
@[simp] theorem State.startRun_mem : s.startRun.mem = [] := rfl
@[simp] theorem State.startRun_prog : s.startRun.prog = s.prog := rfl
@[simp] theorem State.startRun_progLoaded : s.startRun.progLoaded = s.progLoaded := rfl
@[simp] theorem State.startRun_rv : s.startRun.rv = [] := rfl
@[simp] theorem State.startRun_trace : s.startRun.trace = [] := rfl
@[simp] theorem State.startRun_fault : s.startRun.fault = .cleared := rfl

@[simp] theorem State.loadProgram_params (bytes : List Byte) : (s.loadProgram bytes).params = s.params := rfl
@[simp] theorem State.loadProgram_status (bytes : List Byte) : (s.loadProgram bytes).status = s.status := rfl
@[simp] theorem State.loadProgram_pc (bytes : List Byte) : (s.loadProgram bytes).pc = s.pc := rfl
@[simp] theorem State.loadProgram_stepCount (bytes : List Byte) : (s.loadProgram bytes).stepCount = s.stepCount := rfl
@[simp] theorem State.loadProgram_stack (bytes : List Byte) : (s.loadProgram bytes).stack = s.stack := rfl
@[simp] theorem State.loadProgram_mem (bytes : List Byte) : (s.loadProgram bytes).mem = s.mem := rfl
@[simp] theorem State.loadProgram_prog (bytes : List Byte) : (s.loadProgram bytes).prog = bytes := rfl
@[simp] theorem State.loadProgram_progLoaded (bytes : List Byte) : (s.loadProgram bytes).progLoaded = true := rfl
@[simp] theorem State.loadProgram_rv (bytes : List Byte) : (s.loadProgram bytes).rv = s.rv := rfl
@[simp] theorem State.loadProgram_trace (bytes : List Byte) : (s.loadProgram bytes).trace = s.trace := rfl
@[simp] theorem State.loadProgram_fault (bytes : List Byte) : (s.loadProgram bytes).fault = s.fault := rfl

@[simp] theorem State.withFetchWord_params (nbits w : Nat) : (s.withFetchWord nbits w).params = s.params := rfl
@[simp] theorem State.withFetchWord_status (nbits w : Nat) : (s.withFetchWord nbits w).status = .run := rfl
@[simp] theorem State.withFetchWord_pc (nbits w : Nat) : (s.withFetchWord nbits w).pc = s.pc := rfl
@[simp] theorem State.withFetchWord_stepCount (nbits w : Nat) : (s.withFetchWord nbits w).stepCount = s.stepCount :=
  rfl
@[simp] theorem State.withFetchWord_stack (nbits w : Nat) : (s.withFetchWord nbits w).stack = s.stack := rfl
@[simp] theorem State.withFetchWord_mem (nbits w : Nat) : (s.withFetchWord nbits w).mem = s.mem := rfl
@[simp] theorem State.withFetchWord_prog (nbits w : Nat) : (s.withFetchWord nbits w).prog = overlay s.prog s.pc (bytesOfNat (w % 2 ^ nbits)).toList :=
  rfl
@[simp] theorem State.withFetchWord_progLoaded (nbits w : Nat) : (s.withFetchWord nbits w).progLoaded = true := rfl
@[simp] theorem State.withFetchWord_rv (nbits w : Nat) : (s.withFetchWord nbits w).rv = s.rv := rfl
@[simp] theorem State.withFetchWord_trace (nbits w : Nat) : (s.withFetchWord nbits w).trace = s.trace := rfl
@[simp] theorem State.withFetchWord_fault (nbits w : Nat) : (s.withFetchWord nbits w).fault = s.fault := rfl

@[simp] theorem State.withProg_params (q : List Byte) : (s.withProg q).params = s.params := rfl
@[simp] theorem State.withProg_status (q : List Byte) : (s.withProg q).status = s.status := rfl
@[simp] theorem State.withProg_pc (q : List Byte) : (s.withProg q).pc = s.pc := rfl
@[simp] theorem State.withProg_stepCount (q : List Byte) : (s.withProg q).stepCount = s.stepCount := rfl
@[simp] theorem State.withProg_stack (q : List Byte) : (s.withProg q).stack = s.stack := rfl
@[simp] theorem State.withProg_mem (q : List Byte) : (s.withProg q).mem = s.mem := rfl
@[simp] theorem State.withProg_prog (q : List Byte) : (s.withProg q).prog = q := rfl
@[simp] theorem State.withProg_progLoaded (q : List Byte) : (s.withProg q).progLoaded = s.progLoaded := rfl
@[simp] theorem State.withProg_rv (q : List Byte) : (s.withProg q).rv = s.rv := rfl
@[simp] theorem State.withProg_trace (q : List Byte) : (s.withProg q).trace = s.trace := rfl
@[simp] theorem State.withProg_fault (q : List Byte) : (s.withProg q).fault = s.fault := rfl

@[simp] theorem State.unbounded_params : s.unbounded.params = ⟨.inf, .inf, s.params.progMaxBytes⟩ := rfl
@[simp] theorem State.unbounded_status : s.unbounded.status = s.status := rfl
@[simp] theorem State.unbounded_pc : s.unbounded.pc = s.pc := rfl
@[simp] theorem State.unbounded_stepCount : s.unbounded.stepCount = s.stepCount := rfl
@[simp] theorem State.unbounded_stack : s.unbounded.stack = s.stack := rfl
@[simp] theorem State.unbounded_mem : s.unbounded.mem = s.mem := rfl
@[simp] theorem State.unbounded_prog : s.unbounded.prog = s.prog := rfl
@[simp] theorem State.unbounded_progLoaded : s.unbounded.progLoaded = s.progLoaded := rfl
@[simp] theorem State.unbounded_rv : s.unbounded.rv = s.rv := rfl
@[simp] theorem State.unbounded_trace : s.unbounded.trace = s.trace := rfl
@[simp] theorem State.unbounded_fault : s.unbounded.fault = s.fault := rfl

/-- The two derived views of 00_scope.md R7, as fields. -/
@[simp] theorem State.depth_eq : s.depth = s.stack.length := rfl
@[simp] theorem State.memRead_eq (a : Nat) : s.memRead a = s.mem.read a := rfl

@[simp] theorem State.powerOn_params (p : Params) : (State.powerOn p).params = p := rfl
@[simp] theorem State.powerOn_status (p : Params) : (State.powerOn p).status = .idle := rfl
@[simp] theorem State.powerOn_progLoaded (p : Params) : (State.powerOn p).progLoaded = false := rfl

end Sys2Proof.Machine
end

