-- ==== Sys2Proof/Laws/Memory.lean ====
section
/-! SUPPORT. The laws of the data memory: what a read after a write gives, the canonical form is kept, and equal contents
are equal data (20_memory.md R57, R60). -/

namespace Sys2Proof.Machine

open Sys2Proof

@[simp] theorem Memory.read_nil (a : Nat) : Memory.read [] a = 0 := rfl

theorem Memory.read_cons (k : Nat) (v : Int) (m : Memory) (a : Nat) :
    Memory.read ((k, v) :: m) a = if k = a then v else Memory.read m a := rfl

theorem Memory.wfFrom_cons {lo k : Nat} {v : Int} {m : Memory} :
    Memory.wfFrom lo ((k, v) :: m) = true ↔ lo ≤ k ∧ k < memCells ∧ v ≠ 0 ∧ Memory.wfFrom (k + 1) m = true := by
  simp only [Memory.wfFrom, Bool.and_eq_true, decide_eq_true_eq, and_assoc, ne_eq]

/-- A smaller start of the form asks less. -/
theorem Memory.wfFrom_mono {lo lo' : Nat} {m : Memory} (h : Memory.wfFrom lo m = true) (hle : lo' ≤ lo) :
    Memory.wfFrom lo' m = true := by
  cases m with
  | nil => rfl
  | cons e m =>
    obtain ⟨hk, hrest⟩ := Memory.wfFrom_cons.1 h
    exact Memory.wfFrom_cons.2 ⟨hle.trans hk, hrest⟩

/-- A canonical memory lists nothing below its start. -/
theorem Memory.read_below {lo a : Nat} {m : Memory} (h : Memory.wfFrom lo m = true) (ha : a < lo) : m.read a = 0 := by
  induction m generalizing lo with
  | nil => rfl
  | cons e m ih =>
    obtain ⟨hk, -, -, hrest⟩ := Memory.wfFrom_cons.1 h
    rw [Memory.read_cons, if_neg (by omega)]
    exact ih hrest (by omega)

/-- A canonical memory lists nothing outside the 10000 cells. -/
theorem Memory.read_outside {lo a : Nat} {m : Memory} (h : Memory.wfFrom lo m = true) (ha : memCells ≤ a) :
    m.read a = 0 := by
  induction m generalizing lo with
  | nil => rfl
  | cons e m ih =>
    obtain ⟨-, hk, -, hrest⟩ := Memory.wfFrom_cons.1 h
    rw [Memory.read_cons, if_neg (by omega)]
    exact ih hrest

/-- A write leaves every other cell alone, in any memory. -/
@[simp] theorem Memory.read_write_other {m : Memory} {a b : Nat} {v : Int} (h : b ≠ a) :
    (m.write a v).read b = m.read b := by
  induction m with
  | nil =>
    by_cases hv : v = 0 <;> simp [Memory.write, Memory.unlisted, Memory.read_cons, hv, h.symm]
  | cons e m ih =>
    obtain ⟨k, w⟩ := e
    simp only [Memory.write, Memory.unlisted]
    split_ifs <;> simp_all [Memory.read_cons, eq_comm]

/-- A read after a write to the same cell gives the value written, in a canonical memory. -/
theorem Memory.read_write_same_from {lo : Nat} {m : Memory} {a : Nat} {v : Int} (h : Memory.wfFrom lo m = true) :
    (m.write a v).read a = v := by
  induction m generalizing lo with
  | nil => by_cases hv : v = 0 <;> simp [Memory.write, Memory.unlisted, Memory.read_cons, hv]
  | cons e m ih =>
    obtain ⟨k, w⟩ := e
    obtain ⟨-, -, -, hrest⟩ := Memory.wfFrom_cons.1 h
    simp only [Memory.write, Memory.unlisted]
    split_ifs with hlt hv heq hv'
    · rw [Memory.read_cons, if_neg (by omega), Memory.read_below hrest (by omega), hv]
    · simp [Memory.read_cons]
    · rw [Memory.read_below hrest (by omega), hv']
    · simp [Memory.read_cons]
    · rw [Memory.read_cons, if_neg (fun h' => heq h'.symm), ih hrest]

/-- A read after a write, as one equation. -/
theorem Memory.read_write {m : Memory} (h : m.wf = true) (a b : Nat) (v : Int) :
    (m.write a v).read b = if b = a then v else m.read b := by
  split_ifs with hb
  · rw [hb, Memory.read_write_same_from h]
  · exact Memory.read_write_other hb

theorem Memory.wfFrom_write {lo a : Nat} {m : Memory} {v : Int} (h : Memory.wfFrom lo m = true) (hlo : lo ≤ a)
    (ha : a < memCells) : Memory.wfFrom lo (m.write a v) = true := by
  induction m generalizing lo with
  | nil => by_cases hv : v = 0 <;> simp_all [Memory.write, Memory.unlisted, Memory.wfFrom]
  | cons e m ih =>
    obtain ⟨k, w⟩ := e
    obtain ⟨hk, hk', hw, hrest⟩ := Memory.wfFrom_cons.1 h
    simp only [Memory.write, Memory.unlisted]
    split_ifs with hlt hv heq hv'
    · exact h
    · exact Memory.wfFrom_cons.2 ⟨hlo, ha, hv, Memory.wfFrom_cons.2 ⟨hlt, hk', hw, hrest⟩⟩
    · exact Memory.wfFrom_mono hrest (by omega)
    · exact Memory.wfFrom_cons.2 ⟨hlo, ha, hv', heq ▸ hrest⟩
    · exact Memory.wfFrom_cons.2 ⟨hk, hk', hw, ih hrest (by omega)⟩

/-- A write to one of the 10000 cells keeps the canonical form. -/
theorem Memory.wf_write {m : Memory} (h : m.wf = true) {a : Nat} (ha : a < memCells) (v : Int) :
    (m.write a v).wf = true :=
  Memory.wfFrom_write h (Nat.zero_le a) ha

/-- The memory after reset and after `Start` is canonical. -/
@[simp] theorem Memory.wf_nil : Memory.wf [] = true := rfl

theorem State.reset_mem_wf : State.reset.mem.wf = true := rfl

theorem Memory.ext_from {lo : Nat} {m n : Memory} (hm : Memory.wfFrom lo m = true) (hn : Memory.wfFrom lo n = true)
    (h : ∀ a, m.read a = n.read a) : m = n := by
  induction m generalizing lo n with
  | nil =>
    cases n with
    | nil => rfl
    | cons e n =>
      obtain ⟨-, -, hv, -⟩ := Memory.wfFrom_cons.1 hn
      have he := h e.1
      rw [Memory.read_nil, Memory.read_cons, if_pos rfl] at he
      exact absurd he.symm hv
  | cons e m ih =>
    obtain ⟨k, v⟩ := e
    obtain ⟨hk, hkb, hv, hm'⟩ := Memory.wfFrom_cons.1 hm
    cases n with
    | nil =>
      have he := h k
      rw [Memory.read_nil, Memory.read_cons, if_pos rfl] at he
      exact absurd he hv
    | cons e' n =>
      obtain ⟨k', v'⟩ := e'
      obtain ⟨hk', hkb', hv', hn'⟩ := Memory.wfFrom_cons.1 hn
      have hkk : k = k' := by
        rcases Nat.lt_trichotomy k k' with hlt | heq | hgt
        · have hb := Memory.read_below (Memory.wfFrom_cons.2 ⟨le_refl k', hkb', hv', hn'⟩) hlt
          have he := h k
          rw [hb, Memory.read_cons, if_pos rfl] at he
          exact absurd he hv
        · exact heq
        · have hb := Memory.read_below (Memory.wfFrom_cons.2 ⟨le_refl k, hkb, hv, hm'⟩) hgt
          have he := h k'
          rw [hb, Memory.read_cons, if_pos rfl] at he
          exact absurd he.symm hv'
      subst hkk
      have hvv : v = v' := by simpa [Memory.read_cons] using h k
      subst hvv
      refine congrArg _ (ih hm' hn' fun a => ?_)
      by_cases ha : a ≤ k
      · rw [Memory.read_below hm' (by omega), Memory.read_below hn' (by omega)]
      · have he := h a
        rwa [Memory.read_cons, Memory.read_cons, if_neg (by omega), if_neg (by omega)] at he

/-- Equal contents are equal data. -/
theorem Memory.ext {m n : Memory} (hm : m.wf = true) (hn : n.wf = true) (h : ∀ a, m.read a = n.read a) : m = n :=
  Memory.ext_from hm hn h

end Sys2Proof.Machine
end

