-- ==== Sys2Proof/Laws/Exec.lean ====
section
/-! SUPPORT. One spec lemma per shared operation and per meaning, and the inversion lemmas of `exec` and `step`: what a
step can do is said once here, and later proofs cite it instead of unfolding. -/

namespace Sys2Proof.Machine

open Sys2Proof

/-! The operand forms. -/

theorem cellAddress_eq_some {a : Int} {n : Nat} :
    cellAddress a = some n ↔ 0 ≤ a ∧ a < (memCells : Int) ∧ n = a.toNat := by
  unfold cellAddress
  split_ifs with h
  · simp only [Option.some.injEq]
    omega
  · simp only [false_iff]
    omega

theorem cellAddress_eq_none {a : Int} : cellAddress a = none ↔ a < 0 ∨ (memCells : Int) ≤ a := by
  unfold cellAddress
  split_ifs with h
  · simp only [false_iff]
    omega
  · simp only [true_iff]
    omega

theorem directAddress_eq_some {arg : Argument} {n : Nat} :
    directAddress arg = some n ↔ arg.toNat < memCells ∧ n = arg.toNat := by
  simp only [directAddress, cellAddress_eq_some, literal, Int.toNat_natCast]
  omega

theorem directAddress_eq_none {arg : Argument} : directAddress arg = none ↔ memCells ≤ arg.toNat := by
  simp only [directAddress, cellAddress_eq_none, literal]
  omega

theorem State.top_eq_none {s : State} : s.top = none ↔ s.stack = [] := by
  simp [State.top]

/-- The top entry with the entries under it. -/
theorem State.top_eq_some {s : State} {v : Int} : s.top = some v ↔ s.stack = s.stack.dropLast ++ [v] := by
  constructor
  · intro h
    exact (List.dropLast_append_getLast? v h).symm
  · intro h
    rw [State.top, h]
    simp

theorem State.top_of_append {s : State} {r : List Int} {v : Int} (h : s.stack = r ++ [v]) : s.top = some v := by
  rw [State.top, h]
  simp

/-! The shared operations. -/

@[simp] theorem complete_eq (i : Instr) (s : State) : complete i s = .next (s.completed i) := rfl

@[simp] theorem raise_eq (c : FaultCode) (v : Int) (i : Instr) (s : State) :
    raise c v i s = .next (s.faulted c v i) := rfl

theorem faultStop_ne_next (r : FaultRecord) (t : State) : faultStop r ≠ .next t := by
  unfold faultStop
  split <;> simp

theorem State.atEnd_iff {s : State} : s.atEnd = true ↔ s.prog.length < s.pc + 5 := by
  simp [State.atEnd]

/-- The literal of `MEM_CELLS` (00_scope.md R5), for statements written with the number. -/
theorem memCells_eq : memCells = 10000 := rfl

theorem fits_inf {p : Params} (h : p.cellBits = .inf) (v : Int) : fits p v = true := by
  simp [fits, h]

theorem fits_finite {p : Params} {w : Nat} (h : p.cellBits = .finite w) {v : Int} :
    fits p v = true ↔ -(2 ^ (w - 1) : Int) ≤ v ∧ v ≤ (2 ^ (w - 1) : Int) - 1 := by
  simp [fits, h]

/-- The check of `Flags.lean` is `fits` as 00_scope.md R7 writes it. -/
theorem fits_iff {p : Params} {v : Int} : fits p v = true ↔ Fits p v := by
  unfold Fits
  cases h : p.cellBits with
  | finite w => simp [fits_finite h]
  | inf => simp [fits_inf h]

theorem fits_eq_false_iff {p : Params} {v : Int} : fits p v = false ↔ ¬ Fits p v := by
  rw [← fits_iff, Bool.not_eq_true]

theorem stackFull_iff {p : Params} {d : Nat} : stackFull p d = true ↔ p.stackDepth = .finite d := by
  unfold stackFull
  split
  · next n h => simp only [h, beq_iff_eq, Limit.finite.injEq, eq_comm (a := d)]
  · next h => simp [h]

/-! What an instruction can do. -/

/-- The writes an instruction makes when no check of its rule fails: the state before the bookkeeping of completion. -/
inductive InstrEffect (s : State) : Instr → State → Prop where
  | loadConstant {arg : Argument} : stackFull s.params s.depth = false →
      InstrEffect s (.loadConstant arg) (s.push (literal arg))
  | loadFromMemory {arg : Argument} {r : List Int} {addr : Int} : s.stack = r ++ [addr] → 0 ≤ addr →
      addr < (memCells : Int) → InstrEffect s (.loadFromMemory arg) (s.pop.push (s.memRead addr.toNat))
  | storeToMemory {arg : Argument} {r : List Int} {v : Int} : s.stack = r ++ [v] → arg.toNat < memCells →
      InstrEffect s (.storeToMemory arg) (s.pop.memWrite arg.toNat v)
  | multiply {arg : Argument} {r : List Int} {v : Int} : s.stack = r ++ [v] → arg.toNat < memCells →
      fits s.params (v * s.memRead arg.toNat) = true →
      InstrEffect s (.multiply arg) (((s.pop.push (v * s.memRead arg.toNat)).memWrite arg.toNat
        (v * s.memRead arg.toNat)).appendResult (v * s.memRead arg.toNat))

/-- The faults an instruction can raise, each with its whole ground (so no two meet). -/
inductive FaultGround (s : State) : Instr → FaultCode → Int → Prop where
  | illegal {i : Instr} : i.known = false → FaultGround s i .unknownOpcode 0
  | full {arg : Argument} : stackFull s.params s.depth = true → FaultGround s (.loadConstant arg) .stackOverflow 0
  | underflow {i : Instr} : i.opcode = 7 ∨ i.opcode = 2 ∨ i.opcode = 3 → s.stack = [] →
      FaultGround s i .stackUnderflow 0
  | loadRange {arg : Argument} {r : List Int} {addr : Int} : s.stack = r ++ [addr] →
      addr < 0 ∨ (memCells : Int) ≤ addr → FaultGround s (.loadFromMemory arg) .addressOutOfRange addr
  | directRange {i : Instr} : i.opcode = 2 ∨ i.opcode = 3 → s.stack ≠ [] → memCells ≤ i.argument.toNat →
      FaultGround s i .addressOutOfRange (i.argument.toNat : Int)
  | overflow {arg : Argument} {r : List Int} {v : Int} : s.stack = r ++ [v] → arg.toNat < memCells →
      fits s.params (v * s.memRead arg.toNat) = false → FaultGround s (.multiply arg) .arithmeticOverflow 0

/-- An outcome is the completion of an instruction with its effect, or a fault entry on its ground. -/
def CompletesOrFaults (i : Instr) (s : State) (o : Host.Outcome State Fault Refusal) : Prop :=
  (∃ s', InstrEffect s i s' ∧ o = .next (s'.completed i)) ∨
    (∃ c v, FaultGround s i c v ∧ o = .next (s.faulted c v i))

theorem execLoadConstant_spec (arg : Argument) (s : State) :
    CompletesOrFaults (.loadConstant arg) s (execLoadConstant arg s) := by
  unfold execLoadConstant
  cases h : stackFull s.params s.depth
  · exact .inl ⟨_, .loadConstant h, rfl⟩
  · exact .inr ⟨_, _, .full h, rfl⟩

theorem execLoadFromMemory_spec (arg : Argument) (s : State) :
    CompletesOrFaults (.loadFromMemory arg) s (execLoadFromMemory arg s) := by
  unfold execLoadFromMemory
  cases ht : s.top with
  | none => exact .inr ⟨_, _, .underflow (.inl rfl) (State.top_eq_none.1 ht), rfl⟩
  | some addr =>
    have hs := State.top_eq_some.1 ht
    cases hc : cellAddress addr with
    | none => exact .inr ⟨_, _, .loadRange hs (cellAddress_eq_none.1 hc), by simp only [hc, raise_eq]⟩
    | some a =>
      obtain ⟨h0, h1, rfl⟩ := cellAddress_eq_some.1 hc
      exact .inl ⟨_, .loadFromMemory hs h0 h1, by simp only [hc, complete_eq]⟩

theorem execStoreToMemory_spec (arg : Argument) (s : State) :
    CompletesOrFaults (.storeToMemory arg) s (execStoreToMemory arg s) := by
  unfold execStoreToMemory
  cases ht : s.top with
  | none => exact .inr ⟨_, _, .underflow (.inr (.inl rfl)) (State.top_eq_none.1 ht), rfl⟩
  | some v =>
    have hs := State.top_eq_some.1 ht
    have hne : s.stack ≠ [] := by rw [hs]; simp
    cases hc : directAddress arg with
    | none => exact .inr ⟨_, _, .directRange (.inl rfl) hne (directAddress_eq_none.1 hc), raise_eq _ _ _ _⟩
    | some a =>
      obtain ⟨h1, rfl⟩ := directAddress_eq_some.1 hc
      exact .inl ⟨_, .storeToMemory hs h1, complete_eq _ _⟩

theorem execMultiply_spec (arg : Argument) (s : State) :
    CompletesOrFaults (.multiply arg) s (execMultiply arg s) := by
  unfold execMultiply product
  cases ht : s.top with
  | none => exact .inr ⟨_, _, .underflow (.inr (.inr rfl)) (State.top_eq_none.1 ht), rfl⟩
  | some v =>
    have hs := State.top_eq_some.1 ht
    have hne : s.stack ≠ [] := by rw [hs]; simp
    cases hc : directAddress arg with
    | none => exact .inr ⟨_, _, .directRange (.inr rfl) hne (directAddress_eq_none.1 hc), raise_eq _ _ _ _⟩
    | some a =>
      obtain ⟨h1, rfl⟩ := directAddress_eq_some.1 hc
      cases hf : fits s.params (v * s.memRead arg.toNat)
      · exact .inr ⟨_, _, .overflow hs h1 hf, if_neg (Bool.eq_false_iff.1 hf)⟩
      · exact .inl ⟨_, .multiply hs h1 hf, if_pos hf⟩

/-- Every instruction either completes with its effect or enters a fault on its ground; no other outcome. -/
theorem exec_total (i : Instr) (s : State) : CompletesOrFaults i s (exec i s) := by
  cases i with
  | illegal0 arg => exact .inr ⟨_, _, .illegal rfl, rfl⟩
  | illegal4 arg => exact .inr ⟨_, _, .illegal rfl, rfl⟩
  | illegal5 arg => exact .inr ⟨_, _, .illegal rfl, rfl⟩
  | illegal6 arg => exact .inr ⟨_, _, .illegal rfl, rfl⟩
  | loadConstant arg => exact execLoadConstant_spec arg s
  | loadFromMemory arg => exact execLoadFromMemory_spec arg s
  | storeToMemory arg => exact execStoreToMemory_spec arg s
  | multiply arg => exact execMultiply_spec arg s

/-- The inversion lemma of `exec`. -/
theorem exec_cases {i : Instr} {s t : State} (h : exec i s = .next t) :
    (∃ s', InstrEffect s i s' ∧ t = s'.completed i) ∨ (∃ c v, FaultGround s i c v ∧ t = s.faulted c v i) := by
  rcases exec_total i s with ⟨s', he, hx⟩ | ⟨c, v, hg, hx⟩
  · exact .inl ⟨s', he, Host.Outcome.next.inj (h.symm.trans hx)⟩
  · exact .inr ⟨c, v, hg, Host.Outcome.next.inj (h.symm.trans hx)⟩

/-- `exec` always answers a next state. -/
theorem exec_next (i : Instr) (s : State) : ∃ t, exec i s = .next t := by
  rcases exec_total i s with ⟨s', -, hx⟩ | ⟨c, v, -, hx⟩ <;> exact ⟨_, hx⟩

/-- The inversion lemma of `step`: a next state is reached in `RUN` only, by the end-of-program transition or by the
instruction at `pc` (40_engine_cycle.md R107). -/
theorem step_cases {s t : State} (h : step s = .next t) :
    (s.status = .run ∧ s.prog.length < s.pc + 5 ∧ t = { s with status := .done }) ∨
    (s.status = .run ∧ s.pc + 5 ≤ s.prog.length ∧ exec s.fetchInstr s = .next t) := by
  unfold step at h
  split at h
  · simp at h
  · simp at h
  · exact absurd h (faultStop_ne_next _ _)
  · next hs =>
    cases hend : s.atEnd <;> simp only [hend, if_true, if_false, Bool.false_eq_true] at h
    · exact .inr ⟨hs, by simpa [State.atEnd] using hend, h⟩
    · exact .inl ⟨hs, State.atEnd_iff.1 hend, (Host.Outcome.next.inj h).symm⟩

/-- The step at the end of the program (40_engine_cycle.md R101). -/
theorem step_at_end {s : State} (hs : s.status = .run) (h : s.prog.length < s.pc + 5) :
    step s = .next { s with status := .done } := by
  simp only [step, hs, State.atEnd_iff.2 h]
  rfl

/-- The step that runs the instruction at `pc` (40_engine_cycle.md R107). -/
theorem step_exec {s : State} (hs : s.status = .run) (h : s.pc + 5 ≤ s.prog.length) :
    step s = exec s.fetchInstr s := by
  have he : s.atEnd = false := by
    rw [Bool.eq_false_iff, ne_eq, State.atEnd_iff]
    omega
  simp only [step, hs, he]
  rfl

/-- There is no next state in `status = FAULT` (60_exceptions.md R169). -/
theorem step_in_fault {s : State} (hs : s.status = .fault) (t : State) : step s ≠ .next t := by
  simp only [step, hs]
  exact faultStop_ne_next _ _

/-- Runs of the machine, one step unfolded. -/
theorem core_run_zero (s : State) : core.run 0 s = .next s := rfl

theorem core_run_succ {s t : State} (h : step s = .next t) (k : Nat) : core.run (k + 1) s = core.run k t := by
  have hc : core.step s = .next t := h
  simp only [Host.Core.run, hc]

theorem core_run_succ_cases {s u : State} {k : Nat} (h : core.run (k + 1) s = .next u) :
    ∃ t, step s = .next t ∧ core.run k t = .next u := by
  cases hs : step s with
  | next t => exact ⟨t, rfl, by rw [← h, core_run_succ hs]⟩
  | fault r =>
    have hc : core.step s = .fault r := hs
    simp only [Host.Core.run, hc] at h
    exact absurd h (by simp)
  | refused r =>
    have hc : core.step s = .refused r := hs
    simp only [Host.Core.run, hc] at h
    exact absurd h (by simp)

/-- The writes of an instruction touch only the stack, the memory and the result vector. -/
theorem InstrEffect.frame {s s' : State} {i : Instr} (h : InstrEffect s i s') :
    s'.params = s.params ∧ s'.status = s.status ∧ s'.pc = s.pc ∧ s'.stepCount = s.stepCount ∧ s'.prog = s.prog ∧
      s'.progLoaded = s.progLoaded ∧ s'.trace = s.trace ∧ s'.fault = s.fault := by
  cases h <;> simp

/-- Completion after an instruction's writes is what `Completes` says. -/
theorem InstrEffect.completes {s s' : State} {i : Instr} (h : InstrEffect s i s') : Completes i s (s'.completed i) := by
  obtain ⟨h1, h2, h3, h4, h5, h6, h7, h8⟩ := h.frame
  constructor <;> simp [*]

/-- Fault entry is what `FaultEntered` says. -/
theorem State.faulted_entered (s : State) (c : FaultCode) (v : Int) (i : Instr) :
    FaultEntered c v i s (s.faulted c v i) := by
  constructor <;> rfl

/-- A fault entry always has a code. -/
theorem FaultGround.code_ne_none {s : State} {i : Instr} {c : FaultCode} {v : Int} (h : FaultGround s i c v) :
    c ≠ .none := by
  cases h <;> simp

/-- A ground excludes the effect: an instruction that has a ground for a fault does not complete. -/
theorem FaultGround.not_effect {s s' : State} {i : Instr} {c : FaultCode} {v : Int} (h : FaultGround s i c v) :
    ¬ InstrEffect s i s' := by
  intro he
  cases h with
  | illegal hk => cases he <;> simp [Instr.known] at hk
  | full hf => cases he; simp_all
  | underflow ho hs => cases he <;> simp_all [Instr.opcode]
  | loadRange hs hr => cases he with | loadFromMemory hs' _ _ => rw [hs'] at hs; simp at hs; omega
  | directRange ho hs hr => cases he <;> simp_all [Instr.opcode, Instr.argument] <;> omega
  | overflow hs hr hf => cases he with | multiply hs' _ _ => rw [hs'] at hs; simp at hs; simp_all

/-- An opcode that names no instruction is none of 7, 2, 3. -/
theorem Instr.opcode_of_not_known {i : Instr} (h : i.known = false) : i.opcode ≠ 7 ∧ i.opcode ≠ 2 ∧ i.opcode ≠ 3 := by
  cases i <;> simp_all [Instr.known, Instr.opcode]

/-- The grounds exclude each other. -/
theorem FaultGround.unique {s : State} {i : Instr} {c c' : FaultCode} {v v' : Int} (h : FaultGround s i c v)
    (h' : FaultGround s i c' v') : c' = c ∧ v' = v := by
  cases h with
  | illegal hk =>
    obtain ⟨h7, h2, h3⟩ := Instr.opcode_of_not_known hk
    cases h' <;> simp_all [Instr.known]
  | full hf => cases h' <;> simp_all [Instr.known, Instr.opcode]
  | underflow ho hs =>
    cases h' with
    | illegal hk => have := Instr.opcode_of_not_known hk; tauto
    | _ => simp_all [Instr.opcode]
  | loadRange hs hr => cases h' <;> simp_all [Instr.known, Instr.opcode]
  | directRange ho hs hr =>
    cases h' with
    | illegal hk => have := Instr.opcode_of_not_known hk; tauto
    | overflow hs' hr' hf => simp only [Instr.argument] at hr; omega
    | _ => simp_all [Instr.opcode]
  | overflow hs hr hf =>
    cases h' with
    | directRange ho hs' hr' => simp only [Instr.argument] at hr'; omega
    | _ => simp_all [Instr.known]

/-- The writes of an instruction are determined by the state. -/
theorem InstrEffect.unique {s s' s'' : State} {i : Instr} (h : InstrEffect s i s') (h' : InstrEffect s i s'') :
    s' = s'' := by
  cases h <;> cases h' <;> simp_all

/-- An instruction whose checks pass completes with its writes. -/
theorem exec_of_effect {s s' : State} {i : Instr} (h : InstrEffect s i s') : exec i s = .next (s'.completed i) := by
  rcases exec_total i s with ⟨s'', he, hx⟩ | ⟨c, v, hg, hx⟩
  · rw [hx, he.unique h]
  · exact absurd h hg.not_effect

/-- An instruction with a ground for a fault enters that fault. -/
theorem exec_of_ground {s : State} {i : Instr} {c : FaultCode} {v : Int} (h : FaultGround s i c v) :
    exec i s = .next (s.faulted c v i) := by
  rcases exec_total i s with ⟨s', he, hx⟩ | ⟨c', v', hg, hx⟩
  · exact absurd he h.not_effect
  · obtain ⟨rfl, rfl⟩ := h.unique hg
    exact hx

/-- An instruction enters exactly the fault it has a ground for. -/
theorem enters_iff_ground {s : State} {i : Instr} {c : FaultCode} {v : Int} :
    Enters c v i s ↔ FaultGround s i c v := by
  constructor
  · rintro ⟨t, hx, hf⟩
    rcases exec_cases hx with ⟨s', he, rfl⟩ | ⟨c', v', hg, rfl⟩
    · have htrace := hf.trace
      simp [he.frame] at htrace
    · have hc := hf.code
      have hv := hf.info
      simp only [State.faulted_fault] at hc hv
      exact hc ▸ hv ▸ hg
  · exact fun h => ⟨_, exec_of_ground h, s.faulted_entered _ _ _⟩

end Sys2Proof.Machine
end

