-- ==== Sys2Proof/Laws/Host.lean ====
section
/-! SUPPORT. One spec lemma per host operation (10_state.md R35): when it has a move, the state after it and the reply. -/

namespace Sys2Proof.Machine

open Sys2Proof

theorem hostOp_loadProgram {s t : State} {bytes : List Byte} {r : HostReply} :
    hostOp (.loadProgram bytes) s = .ok (t, r) ↔
      s.status ≠ .run ∧ programFits s.params bytes.length = true ∧ t = s.loadProgram bytes ∧ r = .accepted := by
  simp only [hostOp]
  split_ifs with h1 h2
  · simp [h1]
  · simp only [Except.ok.injEq, Prod.mk.injEq, eq_comm (b := t), eq_comm (b := r)]
    simp [h1, h2]
  · simp [h2]

theorem hostOp_start {s t : State} {r : HostReply} :
    hostOp .start s = .ok (t, r) ↔ s.status ≠ .run ∧ s.progLoaded = true ∧ t = s.startRun ∧ r = .accepted := by
  simp only [hostOp]
  split_ifs with h1 h2
  · simp [h1]
  · simp only [Except.ok.injEq, Prod.mk.injEq, eq_comm (b := t), eq_comm (b := r)]
    simp [h1, h2]
  · simp [h2]

/-- Every other operation changes no state. -/
theorem hostOp_reads {op : HostOp} {s t : State} {r : HostReply} (h : hostOp op s = .ok (t, r))
    (hl : ∀ bytes, op ≠ .loadProgram bytes) (hs : op ≠ .start) : t = s := by
  cases op <;> simp only [hostOp] at h
  case loadProgram bytes => exact absurd rfl (hl bytes)
  case start => exact absurd rfl hs
  all_goals (try split_ifs at h) <;> simp_all

/-- The inversion lemma of `hostOp` on the state: it loads a program, starts a run, or changes nothing. -/
theorem hostOp_cases {op : HostOp} {s t : State} {r : HostReply} (h : hostOp op s = .ok (t, r)) :
    (s.status ≠ .run ∧ ∃ bytes, t = s.loadProgram bytes) ∨
      (s.status ≠ .run ∧ s.progLoaded = true ∧ t = s.startRun) ∨ t = s := by
  cases op with
  | loadProgram bytes =>
    obtain ⟨h1, -, h2, -⟩ := hostOp_loadProgram.1 h
    exact .inl ⟨h1, bytes, h2⟩
  | start =>
    obtain ⟨h1, h2, h3, -⟩ := hostOp_start.1 h
    exact .inr (.inl ⟨h1, h2, h3⟩)
  | readStatus => exact .inr (.inr (hostOp_reads h (by simp) (by simp)))
  | readTrace => exact .inr (.inr (hostOp_reads h (by simp) (by simp)))
  | readRV => exact .inr (.inr (hostOp_reads h (by simp) (by simp)))
  | readOut first last => exact .inr (.inr (hostOp_reads h (by simp) (by simp)))

end Sys2Proof.Machine
end

