-- ==== Sys2Proof/Laws/PerInstr.lean ====
section
/-! SUPPORT. The per-instruction family `EncodingShape`: the encoding of each instruction is its argument's three bytes in
little-endian order, its opcode in the top three bits of byte 3 with the unused bits 0, and the filler byte 0
(30_encoding.md R70, R83). -/

namespace Sys2Proof.Laws.EncodingShape

open Sys2Proof

/-- The byte `op << 5`, byte 3 of an encoding (30_encoding.md R76). -/
def opcodeByte (op : Opcode) : Byte := op.setWidth 8 <<< 5

/-- The shape of the encoding of one instruction. -/
def Statement (i : Instr) : Prop :=
  i.wellFormed = true ∧
  encode i = [i.argument.extractLsb' 0 8, i.argument.extractLsb' 8 8, i.argument.extractLsb' 16 8,
    opcodeByte i.opcode, 0x00#8]

/-- The packed word's bytes, for any opcode and argument. -/
theorem encodeFields_shape (op : Opcode) (arg : Argument) :
    encodeFields op arg = [arg.extractLsb' 0 8, arg.extractLsb' 8 8, arg.extractLsb' 16 8, opcodeByte op, 0x00#8] := by
  have ha := arg.isLt
  have ho := op.isLt
  simp only [encodeFields, List.cons.injEq, and_true]
  refine ⟨?_, ?_, ?_, ?_⟩ <;> apply BitVec.eq_of_toNat_eq <;>
    simp only [BitVec.extractLsb'_toNat, packWord_toNat, Nat.shiftRight_eq_div_pow, opcodeByte, BitVec.toNat_shiftLeft,
      BitVec.toNat_setWidth, Nat.shiftLeft_eq] <;> omega

theorem illegal0 (argument : Argument) : Statement (.illegal0 argument) :=
  ⟨wellFormed_of_type _, encodeFields_shape _ _⟩

theorem loadConstant (argument : Argument) : Statement (.loadConstant argument) :=
  ⟨wellFormed_of_type _, encodeFields_shape _ _⟩

theorem storeToMemory (argument : Argument) : Statement (.storeToMemory argument) :=
  ⟨wellFormed_of_type _, encodeFields_shape _ _⟩

theorem multiply (argument : Argument) : Statement (.multiply argument) :=
  ⟨wellFormed_of_type _, encodeFields_shape _ _⟩

theorem illegal4 (argument : Argument) : Statement (.illegal4 argument) :=
  ⟨wellFormed_of_type _, encodeFields_shape _ _⟩

theorem illegal5 (argument : Argument) : Statement (.illegal5 argument) :=
  ⟨wellFormed_of_type _, encodeFields_shape _ _⟩

theorem illegal6 (argument : Argument) : Statement (.illegal6 argument) :=
  ⟨wellFormed_of_type _, encodeFields_shape _ _⟩

theorem loadFromMemory (argument : Argument) : Statement (.loadFromMemory argument) :=
  ⟨wellFormed_of_type _, encodeFields_shape _ _⟩

end Sys2Proof.Laws.EncodingShape
end

