-- ==== Sys2Proof/Tests/Slice0.lean ====
section
/-! SUPPORT. The model's own tests: expected values from the spec's tables and worked examples (each names its vector of
95_test_vectors.md or its rule), and, for every statement with hypotheses, a witness that meets them. -/

namespace Sys2Proof.Tests

open Sys2Proof Sys2Proof.Machine

/-! ## Helpers -/

/-- The next state of an outcome. -/
def after : Host.Outcome State Fault Refusal → Option State
  | .next t => some t
  | .fault _ => none
  | .refused _ => none

/-- A state in `RUN` with a stack and a memory, at the start of a program. -/
def st (stack : List Int) (mem : Memory) (prog : List Byte := []) : State :=
  { State.reset with status := .run, progLoaded := true, stack := stack, mem := mem, prog := prog }

/-- Finite parameters. -/
def withParams (s : State) (cells depth : Limit) : State :=
  { s with params := ⟨cells, depth, .inf⟩ }

/-- What a fault leaves for the host: code, FAULT_STEP, FAULT_ARG, FAULT_INFO, and the stack. -/
structure FaultView where
  code : Nat
  step : Nat
  argument : Nat
  info : Int
  stack : List Int
  deriving DecidableEq, Repr

/-- That view of an outcome. -/
def faultView (o : Host.Outcome State Fault Refusal) : Option FaultView :=
  (after o).map fun t => ⟨t.fault.code.bits.toNat, t.fault.step, t.fault.argument.toNat, t.fault.info, t.stack⟩

/-! ## WellFormed: an ill-formed term for each check -/

theorem test_cellBits_63_refused : (Params.mk (.finite 63) .inf .inf).valid = false := by decide

theorem test_stackDepth_0_refused : (Params.mk (.finite 64) (.finite 0) .inf).valid = false := by decide

theorem test_standard_params_valid : Params.standard.valid = true := by decide

theorem test_source_a_8_refused : (SourceForm.mk 8 0).valid = false := by decide

theorem test_source_a_negative_refused : (SourceForm.mk (-1) 0).valid = false := by decide

theorem test_source_b_25_bits_refused : (SourceForm.mk 1 0x1000000).valid = false := by decide

theorem test_source_b_negative_refused : (SourceForm.mk 1 (-1)).valid = false := by decide

/-- The one argument past the range cannot be written: the 24-bit type reduces it. -/
theorem test_argument_range_is_the_type : (BitVec.ofNat 24 0x1000000 : Argument) = 0 := by decide

/-! ## Decode: every constructor from a word written out bit by bit (30_encoding.md R71, R72) -/

theorem test_decode_illegal0 : decodeTableWord 32 0b000_11111_000000000000000000000000 = some (.illegal0 0) := by decide

theorem test_decode_loadConstant :
    decodeTableWord 40 0b10101010_001_11111_000000000000000010111001 = some (.loadConstant 185) := by decide

theorem test_decode_storeToMemory :
    decodeTableWord 40 0b00000001_010_11111_000000000010011100010000 = some (.storeToMemory 10000) := by decide

theorem test_decode_multiply : decodeTableWord 32 0b011_00000_000000000000000000000011 = some (.multiply 3) := by decide

theorem test_decode_illegal4 : decodeTableWord 32 0b100_00000_000000000000000000000000 = some (.illegal4 0) := by decide

theorem test_decode_illegal5 :
    decodeTableWord 32 0b101_00000_000100100011010001010110 = some (.illegal5 0x123456) := by decide

theorem test_decode_illegal6 :
    decodeTableWord 40 0b11111111_110_00000_000000000000000000000001 = some (.illegal6 1) := by decide

theorem test_decode_loadFromMemory :
    decodeTableWord 40 0b01111011_111_00000_000000000010011100001111 = some (.loadFromMemory 9999) := by decide

/-- Vector DE3, all bits set. -/
theorem test_decode_all_ones :
    decode [0xFF, 0xFF, 0xFF, 0xFF, 0xFF] = .ok (.loadFromMemory 0xFFFFFF, []) := by decide

theorem test_decode_rejects_four_bytes : decode [5, 0, 0, 0x20] = .error .fewerThanFiveBytes := by decide

/-- Vectors EN4 and EN7. -/
theorem test_encode_masks : (SourceForm.mk 15 0x1000000).encode = [0, 0, 0, 0xE0, 0] ∧
    (SourceForm.mk (-1) (-1)).encode = [0xFF, 0xFF, 0xFF, 0xE0, 0] := by decide

/-! ## The instructions (95_test_vectors.md sections 2.3 to 2.7) -/

/-- LC2: zero-extended, not -1; and the trace entry shows the stack after the push. -/
theorem test_loadConstant_zero_extends :
    (after (exec (.loadConstant 0xFFFFFF) (st [3] []))).map (fun t => (t.stack, t.trace, t.pc, t.stepCount)) =
      some ([3, 16777215], [⟨1, 0xFFFFFF, [3, 16777215]⟩], 5, 1) := by decide

/-- LC3. -/
theorem test_loadConstant_on_full_stack :
    faultView (exec (.loadConstant 5) (withParams (st [1, 2] []) (.finite 64) (.finite 2))) =
      some ⟨5, 0, 5, 0, [1, 2]⟩ := by decide

/-- LD2: the argument is ignored and recorded. -/
theorem test_loadFromMemory_ignores_argument :
    (after (exec (.loadFromMemory 0x123456) (st [7] [(7, 42)]))).map (fun t => (t.stack, t.trace)) =
      some ([42], [⟨7, 1193046, [42]⟩]) := by decide

/-- LD6: a negative address. -/
theorem test_loadFromMemory_negative_address :
    faultView (exec (.loadFromMemory 0) (st [1, -1] [])) = some ⟨3, 0, 0, -1, [1, -1]⟩ := by decide

/-- ST6: storing 0 leaves nothing listed. -/
theorem test_storeToMemory_zero :
    (after (exec (.storeToMemory 3) (st [0] [(3, 9)]))).map (fun t => (t.stack, t.mem)) = some ([], []) := by decide

/-- ST3 and F1: the address fault, and the underflow before it. -/
theorem test_storeToMemory_faults :
    [st [5] [], st [] []].map (fun s => faultView (exec (.storeToMemory 10000) s)) =
      [some ⟨3, 0, 10000, 10000, [5]⟩, some ⟨2, 0, 10000, 0, []⟩] := by decide

/-- MU17: three places, and the square. -/
theorem test_multiply_three_places :
    (after (exec (.multiply 0) { st [925] [(0, 925)] with rv := [925] })).map (fun t => (t.stack, t.mem, t.rv)) =
      some ([855625], [(0, 855625)], [925, 855625]) := by decide

/-- MU12 and MU13: the asymmetric edge of the range. -/
theorem test_multiply_at_the_edge :
    faultView (exec (.multiply 0) (st [-1] [(0, -9223372036854775808)])) = some ⟨4, 0, 0, 0, [-1]⟩ ∧
    (after (exec (.multiply 0) (st [1] [(0, -9223372036854775808)]))).map (fun t => t.stack) =
      some [-9223372036854775808] := by decide

/-- F5: no stack check is made; the record names opcode and argument. -/
theorem test_illegal_opcodes :
    [Instr.illegal0 1, .illegal4 5, .illegal5 6, .illegal6 7].map
      (fun i => (after (exec i (st [] []))).map (fun t => (t.fault.code.bits, t.fault.opcode, t.fault.argument))) =
      [some (1, 0, 1), some (1, 4, 5), some (1, 5, 6), some (1, 6, 7)] := by decide

/-! ## The step, the host and the toolchain -/

/-- R101: 4 bytes are the end of the program (vector CY2). -/
theorem test_step_end_of_program :
    (after (step (st [] [] [5, 0, 0, 0x20]))).map (fun t => (t.status, t.pc, t.stepCount, t.trace)) =
      some (.done, 0, 0, []) := by decide

/-- The placed word runs as the first instruction after reset. -/
theorem test_withFetchWord_runs :
    (after (step (State.reset.withFetchWord 32 0x200000B9))).map (fun t => (t.stack, t.pc)) = some ([185], 5) := by decide

/-- R147: the corners of the read-out, around cell 9999. -/
theorem test_readOut_corners : readOut [(9999, 7)] 9999 10000 = .slice [7] ∧ readOut [] 10000 10000 = .slice [] ∧
    readOut [] 3 2 = .rangeError ∧ readOut [] (-1) 5 = .rangeError ∧ readOut [] 0 10001 = .rangeError ∧
    readOut [] 10001 10001 = .rangeError := by decide

/-- R36: `prog_data` with byte `k` on bits `8k+7 : 8k`, and the decoder's outputs. -/
theorem test_ports_decoder_outputs :
    (st [] [] [0xB9, 0, 0, 0x3F, 0xAA]).ports.progData = some 0xAA3F0000B9 ∧
    (st [] [] [0xB9, 0, 0, 0x3F, 0xAA]).ports.decoded = some (1, 185, true) := by decide

/-- R87, R88: `B=3` is opcode 0; a line with three items is malformed and named. -/
theorem test_assemble :
    assemble [[⟨.fieldB, some 3⟩]] = .ok ([3, 0, 0, 0, 0], [⟨0, 3, [3, 0, 0, 0, 0]⟩]) ∧
    assemble [[], [⟨.fieldA, some 1⟩, ⟨.fieldB, some 2⟩, ⟨.fieldB, some 2⟩]] = .error (.malformedInstruction 2) := by
  decide

end Sys2Proof.Tests
end

