-- ==== Sys2Proof/Tests/Witnesses.lean ====
section
/-! SUPPORT. For every statement with hypotheses, a concrete state and operands that meet them together; for a statement with
several clauses, one for each, at a boundary of its range. -/

namespace Sys2Proof.Tests

open Sys2Proof Sys2Proof.Machine

/-! ## The states -/

/-- `LOAD_CONSTANT 5; MULTIPLY 3` (program P7 of 95_test_vectors.md). -/
def demoProg : List Byte := [5, 0, 0, 0x20, 0, 3, 0, 0, 0x60, 0]

/-- The same records with unused bits and padding set, and a trailing partial record. -/
def demoProgNoisy : List Byte := [5, 0, 0, 0x3F, 0xAA, 3, 0, 0, 0x7F, 1, 9]

/-- The state after the first instruction. -/
def demo : State :=
  { st [5] [] demoProg with pc := 5, stepCount := 1, trace := [⟨1, 5, [5]⟩] }

/-- Loaded, not started. -/
def loaded (prog : List Byte) : State :=
  { State.reset with prog := prog, progLoaded := true }

/-- A state in `DONE`, and one in `FAULT` for each code. -/
def doneState : State := { st [] [(9999, 7)] with status := .done }

def faultState (c : FaultCode) : State := { st [] [] with status := .fault, fault := ⟨c, 0, 4, 5, 0⟩ }

/-- A witness that an outcome is a next state with a property. -/
def nextWith (o : Host.Outcome State Fault Refusal) (p : State → Bool) : Prop := ∃ t, o = .next t ∧ p t = true

theorem demo_meets_RunInv : RunInv demo where
  params_valid := by decide
  mem_wf := by decide
  pc_eq := by decide
  pc_le := by decide
  trace_length := by decide
  rv_length := by decide
  depth_le := by decide
  depth_admitted := fun d h => by simp [demo, st, State.reset, State.powerOn, Params.standard] at h
  stack_fits := by decide
  mem_fits := fun a => by simp only [demo, st, Memory.read_nil]; decide
  rv_fits := by decide
  stack_nonneg := by decide
  mem_nonneg := fun a => by simp [demo, st]
  rv_nonneg := by decide
  done_at_end := by decide
  fault_recorded := by decide
  no_fault_clear := by decide

theorem demo_meets_TraceInv : TraceInv demo where
  fields := by decide
  last := by decide
  results := by decide
  balance := by decide

theorem demo_meets_GrowthInv : GrowthInv demo where
  stack_le := by decide
  mem_le := fun a => by simp [demo, st, maxConstant]
  rv_le := by decide

/-! ## The decoder and the encoder -/

theorem witness_OpcodeMapSelectsInstruction :
    ([0x00, 0x20, 0x40, 0x60, 0x80, 0xA0, 0xC0, 0xFF] : List Byte).map (fun x => (decodeFields ⟨1, 2, 3, x, 9⟩).1) =
      [0, 1, 2, 3, 4, 5, 6, 7] := by decide

theorem witness_UnusedBitsAndPaddingAreIgnored :
    (0x20 : Byte).toNat / 32 = (0x3F : Byte).toNat / 32 ∧
    decodeBytes ⟨0xB9, 0, 0, 0x20, 0⟩ = decodeBytes ⟨0xB9, 0, 0, 0x3F, 0xAA⟩ := by decide

theorem witness_RoundTripOfFields :
    (SourceForm.mk 0 0).valid = true ∧ (SourceForm.mk 7 0xFFFFFF).valid = true := by decide

theorem witness_ProgramIsTheConcatenation :
    parseListing 1 [[⟨.fieldA, some 1⟩, ⟨.fieldB, some 185⟩], [], [⟨.fieldA, some 9⟩]] = .ok [⟨1, 185⟩, ⟨9, 0⟩] := by
  decide

theorem witness_SourceLineShapes : sourceForm [⟨.fieldB, some 3⟩] = some ⟨0, 3⟩ := by decide

/-! ## The step -/

theorem witness_StepRunsTheDecodedInstruction :
    demo.status = .run ∧ decode (demo.prog.drop demo.pc) = .ok (.multiply 3, []) := by decide

theorem witness_EndOfProgramIsDone :
    (st [] [] []).status = .run ∧ (st [] [] [5, 0, 0, 0x20]).prog.length < (st [] [] []).pc + 5 := by decide

theorem witness_StoppedEngineSaysWhy :
    State.reset.status = .idle ∧ doneState.status = .done ∧
    [FaultCode.unknownOpcode, .stackUnderflow, .addressOutOfRange, .arithmeticOverflow, .stackOverflow].map
      (fun c => ((faultState c).status, (faultState c).fault.code)) =
      [(.fault, .unknownOpcode), (.fault, .stackUnderflow), (.fault, .addressOutOfRange),
        (.fault, .arithmeticOverflow), (.fault, .stackOverflow)] := by decide

/-- Also for `FaultEntryIsPrecise`, `IllegalOpcodeRaisesUnknownOpcode` and the frames: one completing and one faulting
outcome of `exec` in `RUN`. -/
theorem witness_CompletionBookkeeping :
    (nextWith (exec (.loadConstant 1) (st [] [])) fun t => t.status == .run) ∧
    (nextWith (exec (.illegal4 1) (st [] [])) fun t => t.status == .fault) :=
  ⟨⟨_, rfl, by decide⟩, ⟨_, rfl, by decide⟩⟩

theorem witness_NoControlTransfer :
    (nextWith (step demo) fun t => t.status == .run) ∧ (nextWith (step (st [] [])) fun t => t.status == .done) :=
  ⟨⟨_, rfl, by decide⟩, ⟨_, rfl, by decide⟩⟩

theorem witness_ProgramStoreIsNeverWritten :
    (∃ t, EngineSteps demo t ∧ t.pc = 10) ∧ (hostOp .readStatus demo = .ok (demo, .status .run none)) :=
  ⟨⟨_, .tail (.refl _) rfl, by decide⟩, by decide⟩

/-! ## The instructions -/

theorem witness_LoadConstantMeaning :
    (withParams (st [1, 2] []) (.finite 64) (.finite 2)).params.stackDepth = .finite [1, 2].length ∧
    (withParams (st [1] []) (.finite 64) (.finite 2)).params.stackDepth ≠ .finite [1].length := by decide

/-- The boundary addresses of the three clauses, each on top of a stack. -/
theorem witness_LoadFromMemoryMeaning :
    (st [] []).stack = [] ∧ (st [3, -1] []).stack = [3] ++ [-1] ∧ (st [10000] []).stack = [] ++ [10000] ∧
    (st [0] []).stack = [] ++ [0] ∧ (st [9999] []).stack = [] ++ [9999] := by decide

theorem witness_StoreToMemoryMeaning :
    (st [5] [(9999, 1)]).mem.wf = true ∧ (st [5] []).stack = [] ++ [5] ∧
    (9999 : Argument).toNat < 10000 ∧ 10000 ≤ (10000 : Argument).toNat := by decide

/-- MU10 and MU11: the product `2^63` does not fit, the one below does. -/
theorem witness_MultiplyMeaning :
    (st [4294967296] [(0, 2147483648)]).mem.wf = true ∧
    ¬ Fits (st [4294967296] []).params (4294967296 * Memory.read [(0, 2147483648)] 0) ∧
    Fits (st [4294967296] []).params (4294967296 * Memory.read [(0, 2147483647)] 0) := by
  rw [← fits_iff, ← fits_iff]
  decide

theorem witness_SecondMultiplySquares :
    (st [1, 2] [(9999, 3)]).mem.wf = true ∧ (st [1, 2] []).stack = [1] ++ [2] ∧ (9999 : Argument).toNat < 10000 ∧
    Fits (st [] []).params (2 * Memory.read [(9999, 3)] 9999) ∧
    Fits (st [] []).params ((2 * Memory.read [(9999, 3)] 9999) ^ 2) := by
  rw [← fits_iff, ← fits_iff]
  decide

theorem witness_LoadAndMultiplySeeTheLastStore :
    ∃ t, exec (.storeToMemory 9999) (st [7] []) = .next t ∧ t.mem = (st [9999] [(9999, 7)]).mem ∧
      (st [9999] [(9999, 7)]).stack = [] ++ [((9999 : Argument).toNat : Int)] ∧
      Fits (st [] []).params (9999 * 7) :=
  ⟨_, rfl, by decide, by decide, fits_iff.1 (by decide)⟩

theorem witness_FrameOfNonStoringForms :
    (nextWith (exec (.loadFromMemory 0) (st [1, 7] [(7, 42)])) fun t => t.trace != [] && t.stack == [1, 42]) ∧
    (nextWith (exec (.illegal0 0) (st [1] [])) fun t => t.trace == []) :=
  ⟨⟨_, rfl, by decide⟩, ⟨_, rfl, by decide⟩⟩

theorem witness_FrameOfStoringForms :
    (nextWith (exec (.storeToMemory 9999) (st [1, 7] [(0, 3)])) fun t => t.mem == [(0, 3), (9999, 7)]) ∧
    (nextWith (exec (.multiply 10000) (st [7] [(0, 3)])) fun t => t.mem == [(0, 3)] && t.trace == []) ∧
    directAddress 9999 = some 9999 ∧ directAddress 10000 = none :=
  ⟨⟨_, rfl, by decide⟩, ⟨_, rfl, by decide⟩, by decide, by decide⟩

/-! ## The faults -/

/-- A fault from `RUN` with each side of the equivalence: opcode 5, and opcode 7 on an empty stack. -/
theorem witness_IllegalOpcodeRaisesUnknownOpcode :
    (st [] []).status = .run ∧
    (nextWith (exec (.illegal5 6) (st [] [])) fun t => t.status == .fault && t.fault.code == .unknownOpcode) ∧
    (nextWith (exec (.loadFromMemory 0) (st [] [])) fun t => t.status == .fault && t.fault.code == .stackUnderflow) :=
  ⟨by decide, ⟨_, rfl, by decide⟩, ⟨_, rfl, by decide⟩⟩

theorem witness_FaultEntryIsPrecise :
    (nextWith (exec (.loadFromMemory 0) (st [10000] [])) fun t => t.fault.code == .addressOutOfRange) ∧
    (nextWith (exec (.storeToMemory 10000) (st [5] [])) fun t => t.fault.code == .addressOutOfRange) ∧
    (nextWith (exec (.multiply 0) (st [] [])) fun t => t.fault.code == .stackUnderflow) :=
  ⟨⟨_, rfl, by decide⟩, ⟨_, rfl, by decide⟩, ⟨_, rfl, by decide⟩⟩

theorem witness_StackUnderflowOnEmptyStack :
    [(Instr.loadFromMemory 0).opcode, (Instr.storeToMemory 0).opcode, (Instr.multiply 0).opcode] = [7, 2, 3] ∧
    (st [] []).stack = [] := by decide

theorem witness_AddressOutOfRangeExactly :
    Enters .addressOutOfRange (-1) (.loadFromMemory 0) (st [-1] []) ∧
    Enters .addressOutOfRange 10000 (.multiply 10000) (st [5] []) :=
  ⟨⟨_, rfl, State.faulted_entered _ _ _ _⟩, ⟨_, rfl, State.faulted_entered _ _ _ _⟩⟩

/-- The program has two instructions and the stack depth is 2; both added faults are raised somewhere, and on the same
operands neither is with `INF`. -/
theorem witness_FaultsOfFiniteLimits :
    RunInv (withParams demo (.finite 64) (.finite 2)) ∧ demo.prog.length / 5 ≤ 2 ∧
    (nextWith (exec (.multiply 0) (st [-1] [(0, -9223372036854775808)])) fun t =>
      t.fault.code == .arithmeticOverflow) ∧
    (nextWith (exec (.loadConstant 5) (withParams (st [1, 2] []) (.finite 64) (.finite 2))) fun t =>
      t.fault.code == .stackOverflow) ∧
    (nextWith (exec (.multiply 0) (withParams (st [-1] [(0, -9223372036854775808)]) .inf .inf)) fun t =>
      t.rv == [9223372036854775808]) ∧
    (nextWith (exec (.loadConstant 5) (withParams (st [1, 2] []) .inf .inf)) fun t => t.stack == [1, 2, 5]) :=
  ⟨{ demo_meets_RunInv with
      params_valid := by decide
      depth_admitted := fun d h => by
        simp only [withParams, Limit.finite.injEq] at h
        subst h
        decide },
    by decide, ⟨_, rfl, by decide⟩, ⟨_, rfl, by decide⟩, ⟨_, rfl, by decide⟩, ⟨_, rfl, by decide⟩⟩

theorem witness_OnlyStartLeavesFault :
    (faultState .unknownOpcode).status = .fault ∧
    hostOp .start (faultState .unknownOpcode) = .ok ((faultState .unknownOpcode).startRun, .accepted) ∧
    hostOp (.loadProgram [1]) (faultState .unknownOpcode) =
      .ok ((faultState .unknownOpcode).loadProgram [1], .accepted) := by decide

/-! ## Invariants and runs -/

/-- For `RunInvariantKeptByStep`, `TraceInvariantKeptByStep`, `GrowthBoundKeptByStep`: a step from a state of a run. -/
theorem witness_InvariantsKeptByStep :
    RunInv demo ∧ TraceInv demo ∧ GrowthInv demo ∧ (nextWith (step demo) fun t => t.rv == [0]) :=
  ⟨demo_meets_RunInv, demo_meets_TraceInv, demo_meets_GrowthInv, _, rfl, by decide⟩

theorem witness_StartEstablishesInvariants :
    (loaded demoProg).params.valid = true ∧
    hostOp .start (loaded demoProg) = .ok ((loaded demoProg).startRun, .accepted) := by decide

theorem demo_meets_SystemInv : SystemInv .standard demo where
  params := by decide
  mem_wf := by decide
  pc_eq := by decide
  trace_length := by decide
  rv_length := by decide
  depth_le := by decide
  fault_iff := by decide
  fault_step := by decide
  run_loaded := by decide

/-- For each clause: a step and a host operation from a state that meets the invariant, and a state reached by both. -/
theorem witness_SystemInvariant :
    SystemInv .standard demo ∧ (nextWith (step demo) fun t => t.rv == [0]) ∧
    hostOp .readStatus demo = .ok (demo, .status .run none) ∧ Reachable .standard (loaded demoProg).startRun :=
  ⟨demo_meets_SystemInv, ⟨_, rfl, by decide⟩, by decide,
    .host (op := .start) (r := .accepted) (.host (op := .loadProgram demoProg) (r := .accepted) .powerOn rfl) rfl⟩

theorem witness_EveryRunEnds :
    demo.status = .run ∧ (∃ t, core.run 2 demo = .next t ∧ t.ended = true) ∧
    hostOp .start (loaded []) = .ok ((loaded []).startRun, .accepted) :=
  ⟨by decide, ⟨_, rfl, by decide⟩, by decide⟩

/-- Runs that reach `DONE`, the end in `RUN`, and `FAULT`. -/
theorem witness_DoneMeansEveryRecordExecuted :
    (loaded [5, 0, 0, 0x20, 0]).params.valid = true ∧
    (∃ t, RunReaches (loaded [5, 0, 0, 0x20, 0]) t ∧ t.status = .done) ∧
    (∃ t, RunReaches (loaded [5, 0, 0, 0x20, 0]) t ∧ t.status = .run ∧ t.stepCount = t.prog.length / 5) ∧
    (∃ t, RunReaches (loaded [0, 0, 0, 0, 0]) t ∧ t.status = .fault) :=
  ⟨by decide, ⟨_, ⟨_, rfl, .tail (.tail (.refl _) rfl) rfl⟩, by decide⟩,
    ⟨_, ⟨_, rfl, .tail (.refl _) rfl⟩, by decide, by decide⟩, ⟨_, ⟨_, rfl, .tail (.refl _) rfl⟩, by decide⟩⟩

theorem witness_FaultedRunState :
    ∃ t, RunReaches (loaded [5, 0, 0, 0x20, 0, 0, 0, 0, 0, 0]) t ∧ t.status = .fault ∧ t.fault.step = 1 :=
  ⟨_, ⟨_, rfl, .tail (.tail (.refl _) rfl) rfl⟩, by decide, by decide⟩

/-- Two states with different pasts and the same program; and a run that has ended. -/
theorem witness_NoLeakageBetweenRuns :
    hostOp .start (loaded demoProg) = .ok ((loaded demoProg).startRun, .accepted) ∧
    hostOp .start { doneState with prog := demoProg } = .ok ((loaded demoProg).startRun, .accepted) ∧
    (∃ t, EngineSteps (loaded demoProg).startRun t ∧ t.ended = true) :=
  ⟨by decide, by decide, ⟨_, .tail (.tail (.tail (.refl _) rfl) rfl) rfl, by decide⟩⟩

theorem witness_IgnoredBytesDoNotInfluenceTheRun :
    RunInv demo ∧ SameRecords demo.prog demoProgNoisy ∧ demo.prog ≠ demoProgNoisy :=
  ⟨demo_meets_RunInv, ⟨by decide, by decide⟩, by decide⟩

/-- A run that does not fault, and one product of each kind on the same stack. -/
theorem witness_AgreesWithTheUnboundedReference :
    (∃ t, core.run 2 demo = .next t ∧ t.status ≠ .fault) ∧
    Fits demo.params (5 * demo.mem.read 3) ∧ ¬ Fits demo.params (4294967296 * 2147483648) := by
  refine ⟨⟨_, rfl, by decide⟩, ?_⟩
  rw [← fits_iff, ← fits_iff]
  decide

theorem witness_FirstMultiplyNeverOverflows : RunInv demo ∧ GrowthInv demo ∧ demo.rv = [] :=
  ⟨demo_meets_RunInv, demo_meets_GrowthInv, rfl⟩

/-! ## The host and reset -/

theorem witness_PowerOnIsIdle :
    (loaded demoProg).status = .idle ∧
    hostOp .start (loaded demoProg) = .ok ((loaded demoProg).startRun, .accepted) ∧
    hostOp .start State.reset = .error .noProgramLoaded ∧
    { loaded demoProg with stack := [3] } ≠ loaded demoProg := by decide

theorem witness_StartInitialisesTheRun :
    hostOp .start doneState = .ok (doneState.startRun, .accepted) ∧ doneState.status ≠ .run ∧
    doneState.progLoaded = true := by decide

/-- Each operation where it has a move, and a program of one byte too many. -/
theorem witness_HostOperations :
    hostOp (.loadProgram [1]) State.reset = .ok (State.reset.loadProgram [1], .accepted) ∧
    hostOp (.loadProgram [1, 2]) { State.reset with params := ⟨.inf, .inf, .finite 1⟩ } = .error .programTooLong ∧
    doneState.status = .done ∧ hostOp .readTrace demo = .error .runNotEnded ∧
    hostOp (.readOut 9999 10000) doneState = .ok (doneState, .slice [7]) := by decide

theorem witness_HostOnlyReadsStatusDuringRun :
    demo.status = .run ∧ hostOp .readStatus demo = .ok (demo, .status .run none) := by decide

/-- The clauses at their boundaries: `[9999, 10000)`, `[10000, 10000)`, and bounds one past them. -/
theorem witness_ReadOutSliceOrRangeError :
    doneState.status = .done ∧ hostOp (.readOut 9999 10000) doneState = .ok (doneState, .slice [7]) ∧
    hostOp (.readOut 10000 10000) doneState = .ok (doneState, .slice []) ∧
    hostOp (.readOut 0 10001) doneState = .ok (doneState, .rangeError) ∧
    hostOp (.readOut (-1) 5) doneState = .ok (doneState, .rangeError) ∧
    hostOp (.readOut 3 2) doneState = .ok (doneState, .rangeError) := by decide

theorem witness_PortsPulseOncePerCompletion :
    (nextWith (step demo) fun t => t.status == .run && demo.fetchInstr.opcode == 3) ∧
    (nextWith (step (st [] [])) fun t => t.status != .run) :=
  ⟨⟨_, rfl, by decide⟩, ⟨_, rfl, by decide⟩⟩

end Sys2Proof.Tests
end

section
/-! PROOFS. The inputs of a run, `Prog`, the loaded bit and the parameters, stay while it runs (10_state.md R33,
20_memory.md R63). -/

namespace Sys2Proof.Machine

open Sys2Proof

/-- Neither completion nor a fault entry writes an input of the run. -/
theorem exec_keeps_inputs {i : Instr} {s t : State} (h : exec i s = .next t) :
    t.prog = s.prog ∧ t.progLoaded = s.progLoaded ∧ t.params = s.params := by
  rcases exec_cases h with ⟨s', he, rfl⟩ | ⟨c, v, -, rfl⟩
  · exact ⟨he.completes.prog, he.completes.progLoaded, he.completes.params⟩
  · exact ⟨State.faulted_prog s c v i, State.faulted_progLoaded s c v i, State.faulted_params s c v i⟩

theorem step_keeps_inputs {s t : State} (h : step s = .next t) :
    t.prog = s.prog ∧ t.progLoaded = s.progLoaded ∧ t.params = s.params := by
  rcases step_cases h with ⟨-, -, rfl⟩ | ⟨-, -, hx⟩
  · exact ⟨rfl, rfl, rfl⟩
  · exact exec_keeps_inputs hx

theorem EngineSteps.keeps_inputs {s t : State} (h : EngineSteps s t) :
    t.prog = s.prog ∧ t.progLoaded = s.progLoaded ∧ t.params = s.params := by
  induction h with
  | refl => exact ⟨rfl, rfl, rfl⟩
  | tail _ hstep ih =>
    obtain ⟨hprog, hloaded, hparams⟩ := ih
    obtain ⟨hprog', hloaded', hparams'⟩ := step_keeps_inputs hstep
    exact ⟨hprog'.trans hprog, hloaded'.trans hloaded, hparams'.trans hparams⟩

/-- Every host operation with a move in `RUN` is a read: `LoadProgram` and `Start` have none there (10_state.md R35). -/
theorem hostOp_keeps_state_of_run {op : HostOp} {s t : State} {r : HostReply} (hrun : s.status = .run)
    (h : hostOp op s = .ok (t, r)) : t = s := by
  rcases hostOp_cases h with ⟨hne, -⟩ | ⟨hne, -⟩ | hsame
  · exact absurd hrun hne
  · exact absurd hrun hne
  · exact hsame

/-- The fetch reads `Prog` and `pc` alone. -/
theorem State.fetchInstr_congr {s t : State} (hprog : t.prog = s.prog) (hpc : t.pc = s.pc) :
    t.fetchInstr = s.fetchInstr := by
  rw [State.fetchInstr, State.fetchInstr, hprog, hpc]

/-- Settles O18: engine steps keep the inputs of the run, the host only reads in `RUN`, and the fetch reads `Prog` and
`pc` alone. -/
theorem programStoreIsNeverWritten : Obligations.ProgramStoreIsNeverWritten := by
  unfold Obligations.ProgramStoreIsNeverWritten
  refine ⟨fun s t hsteps => hsteps.keeps_inputs, fun s t op r hrun hop => ?_, fun s m => ?_⟩
  · exact congrArg State.prog (hostOp_keeps_state_of_run hrun hop)
  · exact State.fetchInstr_congr rfl rfl

end Sys2Proof.Machine
end

section
/-! PROOFS. The decoder, the encoder and the assembler (30_encoding.md R74 to R87): the decoded fields as numbers,
decoding after encoding, and where the records of a program stand. -/

namespace Sys2Proof.Machine

open Sys2Proof Sys2Proof.Laws Sys2Proof.Laws.EncodingShape

/-! ## The decoder -/

/-- The opcode is bits 7:5 of byte 3 (30_encoding.md R74). -/
theorem decodeFields_opcode_toNat (b : InstrBytes) : (decodeFields b).1.toNat = b.b3.toNat / 32 := by
  have h0 := b.b0.isLt
  have h1 := b.b1.isLt
  have h2 := b.b2.isLt
  rw [decodeFields, wordOpcode_toNat, word_toNat]
  omega

/-- The argument is bytes 0 to 2, little-endian (30_encoding.md R74). -/
theorem decodeFields_argument_toNat (b : InstrBytes) :
    (decodeFields b).2.toNat = b.b0.toNat + 256 * b.b1.toNat + 65536 * b.b2.toNat := by
  have h0 := b.b0.isLt
  have h1 := b.b1.isLt
  have h2 := b.b2.isLt
  rw [decodeFields, wordArgument_toNat, word_toNat]
  omega

/-- Bits 4:0 of byte 3 and byte 4 do not reach the decoded fields (30_encoding.md R78, R79). -/
theorem decodeFields_congr {b c : InstrBytes} (h0 : b.b0 = c.b0) (h1 : b.b1 = c.b1) (h2 : b.b2 = c.b2)
    (h3 : b.b3.toNat / 32 = c.b3.toNat / 32) : decodeFields b = decodeFields c := by
  have hop : (decodeFields b).1 = (decodeFields c).1 := by
    apply BitVec.eq_of_toNat_eq
    rw [decodeFields_opcode_toNat, decodeFields_opcode_toNat, h3]
  have harg : (decodeFields b).2 = (decodeFields c).2 := by
    apply BitVec.eq_of_toNat_eq
    rw [decodeFields_argument_toNat, decodeFields_argument_toNat, h0, h1, h2]
  exact Prod.ext hop harg

theorem decodeBytes_of_opcode {b : InstrBytes} {op : Opcode} (h : (decodeFields b).1 = op) :
    decodeBytes b = Instr.ofFields op (decodeFields b).2 := by
  rw [decodeBytes, h]

/-! ## The encoder -/

theorem opcodeByte_toNat (op : Opcode) : (opcodeByte op).toNat = 32 * op.toNat := by
  have ho := op.isLt
  simp only [opcodeByte, BitVec.toNat_shiftLeft, BitVec.toNat_setWidth, Nat.shiftLeft_eq]
  omega

theorem opcodeByte_eq_ofNat (op : Opcode) : opcodeByte op = BitVec.ofNat 8 (32 * op.toNat) := by
  rw [← opcodeByte_toNat, BitVec.ofNat_toNat, BitVec.setWidth_eq]

theorem encodeFields_getElem?_three (op : Opcode) (arg : Argument) :
    (encodeFields op arg)[3]? = some (opcodeByte op) := by
  rw [encodeFields_shape]
  rfl

/-- The encoder's masks take the non-negative remainder of any integer (30_encoding.md R82). -/
theorem toNat_ofInt_eq_emod (n : Nat) (v : Int) : ((BitVec.ofInt n v).toNat : Int) = v % 2 ^ n := by
  rw [BitVec.toNat_ofInt, Int.toNat_of_nonneg (Int.emod_nonneg _ (by positivity))]
  norm_cast

@[simp] theorem sourceForm_encode_length (f : SourceForm) : f.encode.length = 5 :=
  encodeFields_length _ _

/-- The five bytes that the encoder emits (30_encoding.md R83). -/
def encodedBytes (op : Opcode) (arg : Argument) : InstrBytes :=
  let w := packWord op arg
  ⟨w.extractLsb' 0 8, w.extractLsb' 8 8, w.extractLsb' 16 8, w.extractLsb' 24 8, 0x00#8⟩

/-- They are the model's encoding as the program store holds it. -/
theorem toList_encodedBytes (op : Opcode) (arg : Argument) : (encodedBytes op arg).toList = encodeFields op arg := rfl

@[simp] theorem encodedBytes_word (op : Opcode) (arg : Argument) : (encodedBytes op arg).word = packWord op arg :=
  word_of_bytes _ _

theorem encodedBytes_b3 (op : Opcode) (arg : Argument) : (encodedBytes op arg).b3 = opcodeByte op :=
  Option.some.inj (encodeFields_getElem?_three op arg)

/-- Decoding after encoding yields the masked fields (30_encoding.md R85). -/
@[simp] theorem decodeFields_encodedBytes (op : Opcode) (arg : Argument) :
    decodeFields (encodedBytes op arg) = (op, arg) := by
  rw [decodeFields, encodedBytes_word, wordOpcode_packWord, wordArgument_packWord]

theorem decode_encodeFields_append (op : Opcode) (arg : Argument) (rest : List Byte) :
    decode (encodeFields op arg ++ rest) = .ok (Instr.ofFields op arg, rest) := by
  have h : decodeBytes (encodedBytes op arg) = Instr.ofFields op arg := by
    rw [decodeBytes, decodeFields_encodedBytes]
  exact congrArg (fun i => Except.ok (i, rest)) h

/-! ## The program -/

theorem encodeProgram_eq_flatMap (fs : List SourceForm) : encodeProgram fs = fs.flatMap SourceForm.encode := by
  induction fs with
  | nil => rfl
  | cons f fs ih => rw [encodeProgram, ih, List.flatMap_cons]

theorem encodeProgram_length (fs : List SourceForm) : (encodeProgram fs).length = 5 * fs.length := by
  induction fs with
  | nil => rfl
  | cons f fs ih =>
    rw [encodeProgram, List.length_append, sourceForm_encode_length, ih, List.length_cons]
    omega

/-- `ProgRead` at an offset beyond the front part reads the back part. -/
theorem progRead_append_right (front back : List Byte) (off : Nat) :
    progRead (front ++ back) (front.length + off) = progRead back off := by
  simp only [progRead, Nat.add_assoc, List.getD_append_right _ _ _ _ (Nat.le_add_right front.length _),
    Nat.add_sub_cancel_left]

theorem progRead_encode_append (f : SourceForm) (rest : List Byte) :
    progRead (f.encode ++ rest) 0 = encodedBytes (BitVec.ofInt 3 f.a) (BitVec.ofInt 24 f.b) := rfl

/-- Record `k` of a program starts at offset `5k` (30_encoding.md R84). -/
theorem progRead_encodeProgram {fs : List SourceForm} {k : Nat} {f : SourceForm} (h : fs[k]? = some f) :
    progRead (encodeProgram fs) (5 * k) = encodedBytes (BitVec.ofInt 3 f.a) (BitVec.ofInt 24 f.b) := by
  induction fs generalizing k with
  | nil => simp at h
  | cons g gs ih =>
    cases k with
    | zero =>
      obtain rfl : g = f := by simpa using h
      exact progRead_encode_append g _
    | succ k =>
      have hoff : 5 * (k + 1) = g.encode.length + 5 * k := by rw [sourceForm_encode_length]; omega
      rw [encodeProgram, hoff, progRead_append_right]
      exact ih (by simpa using h)

theorem assemble_of_parseListing {lines : List (List SourceItem)} {fs : List SourceForm}
    (h : parseListing 1 lines = .ok fs) : assemble lines = .ok (encodeProgram fs, fs.map asmRecord) := by
  simp only [assemble, h]

/-- The three shapes of a well-formed line (30_encoding.md R87). -/
theorem sourceForm_eq_some_iff (items : List SourceItem) (f : SourceForm) : sourceForm items = some f ↔
    (items = [⟨.fieldA, some f.a⟩] ∧ f.b = 0) ∨ (items = [⟨.fieldB, some f.b⟩] ∧ f.a = 0) ∨
      items = [⟨.fieldA, some f.a⟩, ⟨.fieldB, some f.b⟩] := by
  obtain ⟨a, b⟩ := f
  constructor
  · intro h
    unfold sourceForm at h
    split at h
    case h_1 => cases h; exact .inl ⟨rfl, rfl⟩
    case h_2 => cases h; exact .inr (.inl ⟨rfl, rfl⟩)
    case h_3 => cases h; exact .inr (.inr rfl)
    case h_4 => cases h
  · rintro (⟨rfl, rfl⟩ | ⟨rfl, rfl⟩ | rfl) <;> rfl

/-! ## The statements -/

/-- Settles O1: the decoded fields as numbers, which are the fields of the little-endian word. -/
theorem decodeComputesOpcodeAndArgument : Obligations.DecodeComputesOpcodeAndArgument := by
  unfold Obligations.DecodeComputesOpcodeAndArgument
  intro b
  have h0 := b.b0.isLt
  have h1 := b.b1.isLt
  have h2 := b.b2.isLt
  have h3 := b.b3.isLt
  rw [decodeFields_opcode_toNat, decodeFields_argument_toNat]
  omega

/-- Settles O3: the decoded fields do not depend on the ignored bits, and the encoder's byte 3 is a multiple of 32. -/
theorem unusedBitsAndPaddingAreIgnored : Obligations.UnusedBitsAndPaddingAreIgnored := by
  unfold Obligations.UnusedBitsAndPaddingAreIgnored
  refine ⟨fun b c h0 h1 h2 h3 => ?_, fun f => ⟨⟨_, encodeFields_getElem?_three _ _, ?_⟩, rfl⟩,
    fun b0 b1 b2 b3 => ?_⟩
  · rw [decodeBytes, decodeFields_congr h0 h1 h2 h3, decodeBytes]
  · rw [opcodeByte_toNat, Nat.mul_mod_right]
  · exact (decode_eq_error_iff [b0, b1, b2, b3]).2 (by simp)

/-- Settles O4: the encoder's bytes are those of the packed word, whose number is that of the masked fields. -/
theorem encodeMasksAndPacks : Obligations.EncodeMasksAndPacks := by
  unfold Obligations.EncodeMasksAndPacks
  intro A B
  have hword := word_toNat (encodedBytes (BitVec.ofInt 3 A) (BitVec.ofInt 24 B))
  have ha := toNat_ofInt_eq_emod 3 A
  have hb := toNat_ofInt_eq_emod 24 B
  rw [encodedBytes_word, packWord_toNat] at hword
  refine ⟨_, _, _, (encodedBytes (BitVec.ofInt 3 A) (BitVec.ofInt 24 B)).b3, rfl, ?_, ?_⟩
  · calc _ = ((BitVec.ofInt 3 A).toNat : Int) * 2 ^ 29 + (BitVec.ofInt 24 B).toNat := by exact_mod_cast hword.symm
      _ = A % 8 * 2 ^ 29 + B % 2 ^ 24 := by rw [ha, hb]; rfl
  · rw [encodedBytes_b3, opcodeByte_toNat, Nat.mul_mod_right]

/-- Settles O9: induction over the source forms; record `k` is read behind the `k` encodings before it. -/
theorem programIsTheConcatenation : Obligations.ProgramIsTheConcatenation := by
  unfold Obligations.ProgramIsTheConcatenation
  intro lines fs hparse
  refine ⟨_, _, assemble_of_parseListing hparse, encodeProgram_eq_flatMap fs, encodeProgram_length fs,
    List.length_map _, fun k f hk => ⟨?_, sourceForm_encode_length f, ?_⟩⟩
  · rw [List.getElem?_map, hk]
    rfl
  · rw [progRead_encodeProgram hk, decodeFields_encodedBytes]

/-- Settles O2: each row of the opcode map at its opcode, and byte 3 of the encoding's shape. -/
theorem opcodeMapSelectsInstruction : Obligations.OpcodeMapSelectsInstruction := by
  unfold Obligations.OpcodeMapSelectsInstruction
  refine ⟨fun b => ⟨decodeBytes_of_opcode, decodeBytes_of_opcode, decodeBytes_of_opcode, decodeBytes_of_opcode,
    decodeBytes_of_opcode, decodeBytes_of_opcode, decodeBytes_of_opcode, decodeBytes_of_opcode⟩, fun i => ?_⟩
  rw [encode, encodeFields_getElem?_three, opcodeByte_eq_ofNat]

/-- Settles O10: the three shapes; a line `B` alone has the form `A = 0`, whose encoding decodes to opcode 0. -/
theorem sourceLineShapes : Obligations.SourceLineShapes := by
  unfold Obligations.SourceLineShapes
  refine ⟨sourceForm_eq_some_iff, fun b f h => ?_⟩
  obtain rfl : (⟨0, b⟩ : SourceForm) = f := Option.some.inj h
  exact ⟨_, decode_encodeFields_append 0 (BitVec.ofInt 24 b) []⟩

end Sys2Proof.Machine
end

section
/-! PROOFS. The engine cycle (40_engine_cycle.md R101, R106, R110, R112): what a step can do to the run's counters, and
where a run stands in its program. -/

namespace Sys2Proof.Machine

open Sys2Proof

/-! ## One step -/

/-- `exec_cases` in the terms of R106 and R166, for proofs that do not need the instruction's effect. -/
theorem exec_completes_or_enters {i : Instr} {s t : State} (h : exec i s = .next t) :
    Completes i s t ∨ ∃ c v, FaultEntered c v i s t := by
  rcases exec_cases h with ⟨s', he, rfl⟩ | ⟨c, v, -, rfl⟩
  · exact .inl he.completes
  · exact .inr ⟨c, v, s.faulted_entered c v i⟩

/-- The three outcomes of a step: end of program, completion, fault entry (40_engine_cycle.md R107). -/
theorem step_ends_completes_or_enters {s t : State} (h : step s = .next t) : s.status = .run ∧
    ((s.prog.length < s.pc + 5 ∧ t = { s with status := .done }) ∨
      (s.pc + 5 ≤ s.prog.length ∧ Completes s.fetchInstr s t) ∨
      (s.pc + 5 ≤ s.prog.length ∧ ∃ c v, FaultEntered c v s.fetchInstr s t)) := by
  rcases step_cases h with ⟨hrun, hend, ht⟩ | ⟨hrun, hroom, hx⟩
  · exact ⟨hrun, .inl ⟨hend, ht⟩⟩
  · rcases exec_completes_or_enters hx with hc | hf
    · exact ⟨hrun, .inr (.inl ⟨hroom, hc⟩)⟩
    · exact ⟨hrun, .inr (.inr ⟨hroom, hf⟩)⟩

/-! ## Every state of a run -/

/-- What every step keeps holds along the engine's steps. -/
theorem EngineSteps.keeps {P : State → Prop} (hstep : ∀ s t, P s → step s = .next t → P t) {s t : State}
    (h : EngineSteps s t) (hs : P s) : P t := by
  induction h with
  | refl => exact hs
  | tail _ hnext ih => exact hstep _ _ ih hnext

/-- What `Start` establishes and every step keeps holds in every state of the run. -/
theorem RunReaches.of_invariant {P : State → Prop} {s₀ t : State} (hstart : P s₀.startRun)
    (hstep : ∀ s t, P s → step s = .next t → P t) (h : RunReaches s₀ t) : P t := by
  obtain ⟨s, hop, hsteps⟩ := h
  obtain ⟨-, -, rfl, -⟩ := hostOp_start.1 hop
  exact hsteps.keeps hstep hstart

/-- Where a run stands in its program: the counters agree and stay within it, `DONE` is entered behind the last complete
record, and `FAULT` at a complete one. The part of `RunInv` that speaks of the position alone. -/
structure RunPosition (s : State) : Prop where
  pc_eq : s.pc = 5 * s.stepCount
  pc_le : s.pc ≤ s.prog.length
  trace_length : s.trace.length = s.stepCount
  done_at_end : s.status = .done → s.prog.length < s.pc + 5
  fault_at_record : s.status = .fault → s.pc + 5 ≤ s.prog.length ∧ s.fault.step = s.stepCount

theorem State.startRun_runPosition (s : State) : RunPosition s.startRun where
  pc_eq := rfl
  pc_le := Nat.zero_le _
  trace_length := rfl
  done_at_end h := by simp at h
  fault_at_record h := by simp at h

theorem Completes.keeps_runPosition {i : Instr} {s t : State} (h : Completes i s t) (hrun : s.status = .run)
    (hroom : s.pc + 5 ≤ s.prog.length) (hs : RunPosition s) : RunPosition t where
  pc_eq := by rw [h.pc, h.stepCount, hs.pc_eq]; omega
  pc_le := by rw [h.pc, h.prog]; exact hroom
  trace_length := by rw [h.trace, h.stepCount, List.length_append, hs.trace_length, List.length_singleton]
  done_at_end hd := by simp [h.status, hrun] at hd
  fault_at_record hf := by simp [h.status, hrun] at hf

theorem FaultEntered.keeps_runPosition {c : FaultCode} {v : Int} {i : Instr} {s t : State} (h : FaultEntered c v i s t)
    (hroom : s.pc + 5 ≤ s.prog.length) (hs : RunPosition s) : RunPosition t where
  pc_eq := by rw [h.pc, h.stepCount, hs.pc_eq]
  pc_le := by rw [h.pc, h.prog]; exact hs.pc_le
  trace_length := by rw [h.trace, h.stepCount, hs.trace_length]
  done_at_end hd := by simp [h.status] at hd
  fault_at_record _ := by rw [h.pc, h.prog, h.step, h.stepCount]; exact ⟨hroom, rfl⟩

theorem step_keeps_runPosition {s t : State} (hs : RunPosition s) (h : step s = .next t) : RunPosition t := by
  obtain ⟨hrun, ⟨hend, rfl⟩ | ⟨hroom, hc⟩ | ⟨hroom, c, v, hf⟩⟩ := step_ends_completes_or_enters h
  · exact ⟨hs.pc_eq, hs.pc_le, hs.trace_length, fun _ => hend, nofun⟩
  · exact hc.keeps_runPosition hrun hroom hs
  · exact hf.keeps_runPosition hroom hs

theorem RunReaches.runPosition {s₀ t : State} (h : RunReaches s₀ t) : RunPosition t :=
  h.of_invariant s₀.startRun_runPosition fun _ _ => step_keeps_runPosition

/-- Fewer than five bytes are left exactly when every complete record has been executed. -/
theorem RunPosition.at_end_iff {s : State} (h : RunPosition s) :
    s.prog.length < s.pc + 5 ↔ s.stepCount = s.prog.length / 5 := by
  have hpc := h.pc_eq
  have hle := h.pc_le
  omega

theorem State.ended_iff {s : State} : s.ended = true ↔ s.status = .done ∨ s.status = .fault := by
  simp [State.ended]

theorem State.final_iff {s : State} : s.final = true ↔ s.status = .done := by
  simp [State.final]

/-! ## The statements -/

/-- Settles O41: `RunPosition` holds in every state of the run, and places `DONE` behind the last complete record and
`FAULT` before its end. -/
theorem doneMeansEveryRecordExecuted : Obligations.DoneMeansEveryRecordExecuted := by
  unfold Obligations.DoneMeansEveryRecordExecuted
  intro s₀ t _ hreach
  have hpos := hreach.runPosition
  refine ⟨State.ended_iff, State.final_iff, fun hdone => ?_, fun hrun hall => ?_, fun hfault => ?_⟩
  · exact ⟨hpos.at_end_iff.1 (hpos.done_at_end hdone), hpos.pc_eq, hpos.trace_length⟩
  · exact ⟨_, step_at_end hrun (hpos.at_end_iff.2 hall), rfl⟩
  · obtain ⟨hroom, hstep⟩ := hpos.fault_at_record hfault
    have hpc := hpos.pc_eq
    exact ⟨by omega, hstep⟩

/-- Settles O16: completion keeps the status `RUN`, a fault entry keeps trace, step and pc. -/
theorem completionBookkeeping : Obligations.CompletionBookkeeping := by
  unfold Obligations.CompletionBookkeeping
  intro i s t hrun hx
  rcases exec_completes_or_enters hx with hc | ⟨c, v, hf⟩
  · exact .inl ⟨hc.status.trans hrun, hc.trace, hc.stepCount, hc.pc⟩
  · exact .inr ⟨hf.status, hf.trace, hf.stepCount, hf.pc⟩

/-- Settles O17: of the three outcomes of a step, completion alone keeps the status `RUN`, and it alone moves `pc`. -/
theorem noControlTransfer : Obligations.NoControlTransfer := by
  unfold Obligations.NoControlTransfer
  intro s t h
  obtain ⟨hrun, ⟨-, rfl⟩ | ⟨-, hc⟩ | ⟨-, c, v, hf⟩⟩ := step_ends_completes_or_enters h
  · exact ⟨nofun, fun _ => rfl⟩
  · exact ⟨fun _ => hc.pc, fun hne => absurd (hc.status.trans hrun) hne⟩
  · exact ⟨fun ht => by simp [hf.status] at ht, fun _ => hf.pc⟩

/-- Settles O13: the end-of-program transition writes the status alone. -/
theorem endOfProgramIsDone : Obligations.EndOfProgramIsDone := by
  unfold Obligations.EndOfProgramIsDone
  intro s hrun hend
  exact ⟨_, step_at_end hrun hend, rfl, rfl, rfl, rfl, rfl, rfl, rfl, rfl, rfl, rfl, rfl⟩

end Sys2Proof.Machine
end

section
/-! PROOFS. The encoding of any instruction (30_encoding.md R76 to R79), in the terms the instructions' statements use. -/

namespace Sys2Proof.Machine

open Sys2Proof Sys2Proof.Laws.EncodingShape

/-- Five bytes decode to an instruction exactly when they decode to its fields (30_encoding.md R76). -/
theorem decodeBytes_eq_iff (b : InstrBytes) (i : Instr) :
    decodeBytes b = i ↔ decodeFields b = (i.opcode, i.argument) := by
  constructor
  · rintro rfl
    simp
  · intro h
    rw [decodeBytes, h, Laws.ofFields_of_instr]

/-- The argument is its three bytes, little-endian (30_encoding.md R70). -/
theorem argument_toNat_eq_bytes (arg : Argument) :
    (arg.extractLsb' 0 8).toNat + 256 * (arg.extractLsb' 8 8).toNat + 65536 * (arg.extractLsb' 16 8).toNat =
      arg.toNat := by
  have ha := arg.isLt
  simp only [BitVec.extractLsb'_toNat, Nat.shiftRight_eq_div_pow]
  omega

/-- Every instruction is encoded with its opcode in byte 3, and the five bytes that decode to it are those with its
opcode in bits 7:5 of byte 3 and its argument in bytes 0 to 2. -/
theorem encodedAs_opcodeByte (i : Instr) : EncodedAs i (opcodeByte i.opcode) := by
  refine ⟨⟨_, _, _, encodeFields_shape i.opcode i.argument, argument_toNat_eq_bytes i.argument⟩, fun b => ?_⟩
  rw [decodeBytes_eq_iff, Prod.ext_iff, ← BitVec.toNat_inj, ← BitVec.toNat_inj, decodeFields_opcode_toNat,
    decodeFields_argument_toNat, opcodeByte_toNat, Nat.mul_div_cancel_left _ (by decide)]

end Sys2Proof.Machine
end

section
/-! PROOFS. `LOAD_CONSTANT` (41_load_constant.md R120). -/

namespace Sys2Proof.Machine

open Sys2Proof

/-- Settles O19: the stack-full check alone decides between the fault's ground and the push. -/
theorem loadConstantMeaning : Obligations.LoadConstantMeaning := by
  unfold Obligations.LoadConstantMeaning
  intro arg s
  refine ⟨encodedAs_opcodeByte (.loadConstant arg), fun hfull => ?_, fun hroom => ?_⟩
  · exact enters_iff_ground.2 (.full (stackFull_iff.2 hfull))
  · have heffect : InstrEffect s (.loadConstant arg) (s.push (literal arg)) :=
      .loadConstant (Bool.eq_false_iff.2 (mt stackFull_iff.1 hroom))
    exact ⟨_, exec_of_effect heffect, heffect.completes, rfl, rfl, rfl⟩

end Sys2Proof.Machine
end

section
/-! PROOFS. `LOAD_FROM_MEMORY` and `STORE_TO_MEMORY` (42_memory_access.md R125, R126). -/

namespace Sys2Proof.Machine

open Sys2Proof

/-- `pop()` leaves the entries under the top (00_scope.md R7). -/
theorem State.pop_stack_of_append {s : State} {r : List Int} {v : Int} (h : s.stack = r ++ [v]) :
    s.pop.stack = r := by
  rw [State.pop_stack, h, List.dropLast_concat]

/-- An instruction with direct addressing enters `AddressOutOfRange` with its argument, once the stack holds an operand
(20_memory.md R54). -/
theorem enters_addressOutOfRange_of_direct {i : Instr} {s : State} {r : List Int} {v : Int}
    (hop : i.opcode = 2 ∨ i.opcode = 3) (hstack : s.stack = r ++ [v]) (hrange : memCells ≤ i.argument.toNat) :
    Enters .addressOutOfRange i.argument.toNat i s :=
  enters_iff_ground.2 (.directRange hop (by simp [hstack]) hrange)

/-- Settles O20: the empty stack and an address outside the memory are the two grounds for a fault; in every other state
the top is popped and the cell it names is pushed. -/
theorem loadFromMemoryMeaning : Obligations.LoadFromMemoryMeaning := by
  unfold Obligations.LoadFromMemoryMeaning
  intro arg s
  refine ⟨encodedAs_opcodeByte (.loadFromMemory arg), fun hempty => ?_, fun r addr hstack hrange => ?_,
    fun r addr hstack hnonneg hlt => ?_⟩
  · exact enters_iff_ground.2 (.underflow (.inl rfl) hempty)
  · exact enters_iff_ground.2 (.loadRange hstack hrange)
  · have heffect : InstrEffect s (.loadFromMemory arg) (s.pop.push (s.memRead addr.toNat)) :=
      .loadFromMemory hstack hnonneg hlt
    refine ⟨_, exec_of_effect heffect, heffect.completes, ?_, rfl, rfl⟩
    rw [State.completed_stack, State.push_stack, State.pop_stack_of_append hstack, State.memRead_eq]

/-- Settles O21: the empty stack and an argument that names no cell are the two grounds for a fault; in every other state
the top is popped and written, and a canonical memory reads back the value written at that cell alone. -/
theorem storeToMemoryMeaning : Obligations.StoreToMemoryMeaning := by
  unfold Obligations.StoreToMemoryMeaning
  intro arg s hwf
  refine ⟨encodedAs_opcodeByte (.storeToMemory arg), fun hempty => ?_, fun r v hstack hrange => ?_,
    fun r v hstack hlt => ?_⟩
  · exact enters_iff_ground.2 (.underflow (.inr (.inl rfl)) hempty)
  · exact enters_addressOutOfRange_of_direct (.inl rfl) hstack hrange
  · have heffect : InstrEffect s (.storeToMemory arg) (s.pop.memWrite arg.toNat v) := .storeToMemory hstack hlt
    exact ⟨_, exec_of_effect heffect, heffect.completes, State.pop_stack_of_append hstack,
      fun a => Memory.read_write hwf arg.toNat a v, rfl⟩

end Sys2Proof.Machine
end

section
/-! PROOFS. `MULTIPLY` (43_multiply.md R135 to R137). -/

namespace Sys2Proof.Machine

open Sys2Proof

/-- A product that fits goes to the three places, and the instruction completes (43_multiply.md R135). -/
theorem exec_multiply_of_fits {arg : Argument} {s : State} {r : List Int} {v : Int} (hstack : s.stack = r ++ [v])
    (hlt : arg.toNat < memCells) (hfits : Fits s.params (v * s.mem.read arg.toNat)) :
    ∃ t, exec (.multiply arg) s = .next t ∧ Completes (.multiply arg) s t ∧
      t.stack = r ++ [v * s.mem.read arg.toNat] ∧
      t.mem = s.mem.write arg.toNat (v * s.mem.read arg.toNat) ∧
      t.rv = s.rv ++ [v * s.mem.read arg.toNat] := by
  have heffect : InstrEffect s (.multiply arg) _ := .multiply hstack hlt (fits_iff.2 hfits)
  refine ⟨_, exec_of_effect heffect, heffect.completes, ?_, rfl, rfl⟩
  exact congrArg (· ++ [v * s.mem.read arg.toNat]) (State.pop_stack_of_append hstack)

/-- A product that does not fit is the fault (43_multiply.md R137). -/
theorem enters_arithmeticOverflow_of_not_fits {arg : Argument} {s : State} {r : List Int} {v : Int}
    (hstack : s.stack = r ++ [v]) (hlt : arg.toNat < memCells)
    (hfits : ¬ Fits s.params (v * s.mem.read arg.toNat)) : Enters .arithmeticOverflow 0 (.multiply arg) s :=
  enters_iff_ground.2 (.overflow hstack hlt (fits_eq_false_iff.2 hfits))

/-- Settles O22: the empty stack, an argument that names no cell and a product that does not fit are the three grounds for
a fault; in every other state the product is written, and a canonical memory reads it back at that cell alone. -/
theorem multiplyMeaning : Obligations.MultiplyMeaning := by
  unfold Obligations.MultiplyMeaning
  intro arg s hwf
  refine ⟨encodedAs_opcodeByte (.multiply arg), fun hempty => ?_, fun r v hstack hrange => ?_,
    fun r v hstack hlt hfits => ?_, fun r v hstack hlt hfits => ?_⟩
  · exact enters_iff_ground.2 (.underflow (.inr (.inr rfl)) hempty)
  · exact enters_addressOutOfRange_of_direct (.inr rfl) hstack hrange
  · exact enters_arithmeticOverflow_of_not_fits hstack hlt hfits
  · obtain ⟨t, hx, hcompletes, ht, hmem, hrv⟩ := exec_multiply_of_fits hstack hlt hfits
    exact ⟨t, hx, hcompletes, ht, fun a => by rw [hmem, Memory.read_write hwf], hrv⟩

end Sys2Proof.Machine
end

section
/-! PROOFS. The unbounded reference (43_multiply.md R137): the same state with `CELL_BITS = INF` and `STACK_DEPTH = INF`
makes every step that does not enter a fault. -/

namespace Sys2Proof.Machine

open Sys2Proof

/-- The checks that pass with finite parameters pass with `INF`, and the writes do not depend on the parameters. -/
theorem InstrEffect.unbounded {s s' : State} {i : Instr} (h : InstrEffect s i s') :
    InstrEffect s.unbounded i s'.unbounded := by
  cases h with
  | loadConstant _ => exact .loadConstant rfl
  | loadFromMemory hstack hnonneg hlt => exact .loadFromMemory hstack hnonneg hlt
  | storeToMemory hstack hlt => exact .storeToMemory hstack hlt
  | multiply hstack hlt _ => exact .multiply hstack hlt rfl

/-- An instruction that enters no fault completes in the unbounded reference with the same effect. -/
theorem exec_unbounded {i : Instr} {s t : State} (h : exec i s = .next t) (hne : t.status ≠ .fault) :
    exec i s.unbounded = .next t.unbounded := by
  rcases exec_cases h with ⟨s', heffect, rfl⟩ | ⟨c, v, -, rfl⟩
  · exact exec_of_effect heffect.unbounded
  · exact absurd (State.faulted_status s c v i) hne

theorem step_unbounded {s t : State} (h : step s = .next t) (hne : t.status ≠ .fault) :
    step s.unbounded = .next t.unbounded := by
  rcases step_cases h with ⟨hrun, hend, rfl⟩ | ⟨hrun, hroom, hx⟩
  · exact step_at_end (s := s.unbounded) hrun hend
  · rw [step_exec (s := s.unbounded) hrun hroom, State.fetchInstr_congr s.unbounded_prog s.unbounded_pc]
    exact exec_unbounded hx hne

/-- No run leaves `FAULT` (60_exceptions.md R169). -/
theorem core_run_in_fault {k : Nat} {s t : State} (h : core.run k s = .next t) (hs : s.status = .fault) :
    t.status = .fault := by
  cases k with
  | zero => exact Host.Outcome.next.inj h ▸ hs
  | succ k =>
    obtain ⟨u, hstep, -⟩ := core_run_succ_cases h
    exact absurd hstep (step_in_fault hs u)

/-- A run that does not end in `FAULT` has met none, so the unbounded reference makes its steps one by one. -/
theorem core_run_unbounded {k : Nat} {s t : State} (h : core.run k s = .next t) (hne : t.status ≠ .fault) :
    core.run k s.unbounded = .next t.unbounded := by
  induction k generalizing s with
  | zero =>
    obtain rfl : s = t := Host.Outcome.next.inj h
    exact core_run_zero s.unbounded
  | succ k ih =>
    obtain ⟨u, hstep, hrest⟩ := core_run_succ_cases h
    rw [core_run_succ (step_unbounded hstep (mt (core_run_in_fault hrest) hne))]
    exact ih hrest

/-- Settles O45: the product is exact or the fault, and the runs agree by induction on the number of steps. -/
theorem agreesWithTheUnboundedReference : Obligations.AgreesWithTheUnboundedReference := by
  unfold Obligations.AgreesWithTheUnboundedReference
  refine ⟨fun arg s r v hstack hlt => ?_, fun k s t => core_run_unbounded⟩
  by_cases hfits : Fits s.params (v * s.mem.read arg.toNat)
  · obtain ⟨t, hx, -, ht, -, -⟩ := exec_multiply_of_fits hstack hlt hfits
    exact ⟨t, hx, fun _ => ht, fun hnot => absurd hfits hnot⟩
  · obtain ⟨t, hx, hfault⟩ := enters_arithmeticOverflow_of_not_fits hstack hlt hfits
    exact ⟨t, hx, fun hyes => absurd hyes hfits, fun _ => hfault⟩

end Sys2Proof.Machine
end

section
/-! PROOFS. `ReadOut` (44_host_readout.md R145, R146): the bounds decide between the slice and `RangeError`, and neither
changes the state. -/

namespace Sys2Proof.Machine

open Sys2Proof

/-- In `DONE` the move is there whatever the bounds, and it is a read: `RangeError` is a reply, no fault
(44_host_readout.md R146). -/
theorem hostOp_readOut_of_done {s : State} (hdone : s.status = .done) (first last : Int) :
    hostOp (.readOut first last) s = .ok (s, readOut s.mem first last) :=
  if_pos hdone

theorem readOut_of_inRange {first last : Int} (m : Memory) (hnonneg : 0 ≤ first) (hle : first ≤ last)
    (hlast : last ≤ (memCells : Int)) :
    readOut m first last = .slice ((List.range (last - first).toNat).map fun k => m.read (first.toNat + k)) :=
  if_neg (by omega)

theorem readOut_of_outOfRange {first last : Int} (m : Memory)
    (h : first < 0 ∨ first > (memCells : Int) ∨ last < 0 ∨ last > (memCells : Int) ∨ first > last) :
    readOut m first last = .rangeError :=
  if_pos h

/-- Settles O51: in `DONE` the reply is `readOut`'s, whose one test is on the bounds; the slice maps the ascending offsets
from `start` to their cells. -/
theorem readOutSliceOrRangeError : Obligations.ReadOutSliceOrRangeError := by
  unfold Obligations.ReadOutSliceOrRangeError
  intro s first last hdone
  rw [hostOp_readOut_of_done hdone]
  refine ⟨fun hnonneg hle hlast => ?_, fun hbounds => by rw [readOut_of_outOfRange s.mem hbounds]⟩
  refine ⟨_, by rw [readOut_of_inRange s.mem hnonneg hle hlast], ?_, fun k hk => ?_⟩
  · rw [List.length_map, List.length_range, Int.toNat_of_nonneg (Int.sub_nonneg.2 hle)]
  · have hoffset : k < (last - first).toNat := by omega
    have hcell : (first + k).toNat = first.toNat + k := Int.toNat_add_nat hnonneg k
    rw [List.getElem?_map, List.getElem?_range hoffset, hcell, Option.map_some]

end Sys2Proof.Machine
end

section
/-! PROOFS. The faults (60_exceptions.md R162, R163, R165, R166): an instruction enters exactly the fault it has a ground for
(`enters_iff_ground`), so each statement about a fault is read off the grounds of its code. -/

namespace Sys2Proof.Machine

open Sys2Proof

variable {s t : State} {i : Instr} {c : FaultCode} {v : Int}

/-! ## The grounds of each fault -/

theorem Instr.eq_ofFields_of_opcode {op : Opcode} (h : i.opcode = op) : i = Instr.ofFields op i.argument := by
  rw [← h, Laws.ofFields_of_instr]

/-- The opcodes without an instruction are those outside `{1, 2, 3, 7}` (60_exceptions.md R162). -/
theorem Instr.known_eq_false_iff :
    i.known = false ↔ i.opcode ≠ 1 ∧ i.opcode ≠ 2 ∧ i.opcode ≠ 3 ∧ i.opcode ≠ 7 := by
  cases i <;> simp [Instr.known, Instr.opcode]

/-- An instruction with another ground has an opcode in `{1, 2, 3, 7}`, so the opcode alone decides (R162). -/
theorem FaultGround.code_eq_unknownOpcode_iff (h : FaultGround s i c v) : c = .unknownOpcode ↔ i.known = false := by
  constructor
  · rintro rfl
    cases h with
    | illegal hk => exact hk
  · intro hk
    obtain ⟨hc, -⟩ := h.unique (.illegal hk)
    exact hc.symm

theorem faultGround_stackUnderflow_iff :
    FaultGround s i .stackUnderflow v ↔ v = 0 ∧ (i.opcode = 7 ∨ i.opcode = 2 ∨ i.opcode = 3) ∧ s.stack = [] := by
  constructor
  · intro h
    cases h with
    | underflow hop hempty => exact ⟨rfl, hop, hempty⟩
  · rintro ⟨rfl, hop, hempty⟩
    exact .underflow hop hempty

theorem faultGround_arithmeticOverflow_iff :
    FaultGround s i .arithmeticOverflow v ↔ v = 0 ∧ i.opcode = 3 ∧ i.argument.toNat < memCells ∧
      ∃ r x, s.stack = r ++ [x] ∧ ¬ Fits s.params (x * s.mem.read i.argument.toNat) := by
  constructor
  · intro h
    cases h with
    | overflow hstack hlt hfits => exact ⟨rfl, rfl, hlt, _, _, hstack, fits_eq_false_iff.1 hfits⟩
  · rintro ⟨rfl, hop, hlt, r, x, hstack, hfits⟩
    rw [Instr.eq_ofFields_of_opcode hop]
    exact .overflow hstack hlt (fits_eq_false_iff.2 hfits)

theorem faultGround_stackOverflow_iff :
    FaultGround s i .stackOverflow v ↔
      v = 0 ∧ i.opcode = 1 ∧ s.params.stackDepth = .finite s.stack.length := by
  constructor
  · intro h
    cases h with
    | full hfull => exact ⟨rfl, rfl, stackFull_iff.1 hfull⟩
  · rintro ⟨rfl, hop, hfull⟩
    rw [Instr.eq_ofFields_of_opcode hop]
    exact .full (stackFull_iff.2 hfull)

/-- `FAULT_INFO` is 0 for every code but one (60_exceptions.md R160). -/
theorem FaultGround.info_eq_zero (h : FaultGround s i c v) (hc : c ≠ .addressOutOfRange) : v = 0 := by
  cases h with
  | loadRange => exact absurd rfl hc
  | directRange => exact absurd rfl hc
  | _ => rfl

/-- The offending address of opcode 7 is the stack top (20_memory.md R53). -/
theorem FaultGround.top_of_addressOutOfRange (h : FaultGround s i .addressOutOfRange v) (hop : i.opcode = 7) :
    s.top = some v := by
  cases h with
  | loadRange hstack _ => exact State.top_of_append hstack
  | directRange hdirect => simp [hop] at hdirect

/-- The offending address of every other opcode is the argument (20_memory.md R53). -/
theorem FaultGround.argument_of_addressOutOfRange (h : FaultGround s i .addressOutOfRange v) (hop : i.opcode ≠ 7) :
    v = (i.argument.toNat : Int) := by
  cases h with
  | loadRange => exact absurd rfl hop
  | directRange => rfl

/-! ## What is entered -/

/-- From `RUN`, the status after an instruction tells a fault entry from completion. -/
theorem exec_faulted_of_run (hrun : s.status = .run) (h : exec i s = .next t) (hfault : t.status = .fault) :
    ∃ c v, FaultGround s i c v ∧ t = s.faulted c v i := by
  rcases exec_cases h with ⟨s', heffect, rfl⟩ | hentered
  · rw [heffect.completes.status, hrun] at hfault
    cases hfault
  · exact hentered

theorem Fits.of_inf {p : Params} (h : p.cellBits = .inf) (x : Int) : Fits p x :=
  fits_iff.1 (fits_inf h x)

/-- An instruction of a program that is no longer than the stack is deep finds fewer than `STACK_DEPTH` entries: each entry
was pushed by a completed instruction (10_state.md R34). -/
theorem RunInv.stack_length_lt {d : Nat} (hs : RunInv s) (hroom : s.pc + 5 ≤ s.prog.length)
    (hshort : s.prog.length / 5 ≤ d) : s.stack.length < d := by
  have hpc := hs.pc_eq
  have hdepth := hs.depth_le
  omega

theorem step_code_ne_stackOverflow {d : Nat} (hs : RunInv s) (hfinite : s.params.stackDepth = .finite d)
    (hshort : s.prog.length / 5 ≤ d) (h : step s = .next t) : t.fault.code ≠ .stackOverflow := by
  have hclear (hrun : s.status = .run) : s.fault = .cleared := hs.no_fault_clear (by simp [hrun])
  rcases step_cases h with ⟨hrun, -, rfl⟩ | ⟨hrun, hroom, hx⟩
  · rw [hclear hrun]
    exact nofun
  · rcases exec_cases hx with ⟨s', heffect, rfl⟩ | ⟨c, v, hground, rfl⟩
    · rw [heffect.completes.fault, hclear hrun]
      exact nofun
    · rintro rfl
      obtain ⟨-, -, hfull⟩ := faultGround_stackOverflow_iff.1 hground
      have hlength : d = s.stack.length := Limit.finite.inj (hfinite.symm.trans hfull)
      have hlt := hs.stack_length_lt hroom hshort
      omega

end Sys2Proof.Machine
end

section
/-! PROOFS. The host in `FAULT` (60_exceptions.md R169). -/

namespace Sys2Proof.Machine

open Sys2Proof

/-- `LoadProgram` and the reads leave `status` and the fault record, in any state (10_state.md R35). -/
theorem hostOp_keeps_status_and_fault {op : HostOp} {s t : State} {r : HostReply} (h : hostOp op s = .ok (t, r))
    (hstart : op ≠ .start) : t.status = s.status ∧ t.fault = s.fault := by
  by_cases hload : ∃ bytes, op = .loadProgram bytes
  · obtain ⟨bytes, rfl⟩ := hload
    obtain ⟨-, -, rfl, -⟩ := hostOp_loadProgram.1 h
    exact ⟨s.loadProgram_status bytes, s.loadProgram_fault bytes⟩
  · rw [hostOp_reads h (not_exists.1 hload) hstart]
    exact ⟨rfl, rfl⟩

end Sys2Proof.Machine
end

section
/-! PROOFS. The statements about the faults (60_exceptions.md R162, R163, R165, R166, R169). -/

namespace Sys2Proof.Machine

open Sys2Proof

/-- Settles O23: an illegal opcode has its ground in every state, and it is the only one with this code. -/
theorem illegalOpcodeRaisesUnknownOpcode : Obligations.IllegalOpcodeRaisesUnknownOpcode := by
  unfold Obligations.IllegalOpcodeRaisesUnknownOpcode
  refine ⟨fun arg s => ?_, fun i s t hrun hx hfault => ?_⟩
  · have henters (i : Instr) (hk : i.known = false) : Enters .unknownOpcode 0 i s := enters_iff_ground.2 (.illegal hk)
    exact ⟨henters _ rfl, henters _ rfl, henters _ rfl, henters _ rfl⟩
  · obtain ⟨c, v, hground, rfl⟩ := exec_faulted_of_run hrun hx hfault
    exact hground.code_eq_unknownOpcode_iff.trans Instr.known_eq_false_iff

/-- Settles O28: the entry is `State.faulted`, its ground determines code and info, and `FAULT` has no step. -/
theorem faultEntryIsPrecise : Obligations.FaultEntryIsPrecise := by
  unfold Obligations.FaultEntryIsPrecise
  intro i s t hrun hx hfault
  obtain ⟨c, v, hground, rfl⟩ := exec_faulted_of_run hrun hx hfault
  refine ⟨s.faulted_entered c v i, hground.code_ne_none, hground.info_eq_zero, ?_, step_in_fault hfault⟩
  rintro rfl
  exact ⟨hground.top_of_addressOutOfRange, hground.argument_of_addressOutOfRange⟩

/-- Settles O29: the ground of `StackUnderflow` names neither the argument nor anything of the state but the stack. -/
theorem stackUnderflowOnEmptyStack : Obligations.StackUnderflowOnEmptyStack := by
  unfold Obligations.StackUnderflowOnEmptyStack
  refine ⟨fun i s hop hempty => ?_, fun i s t hrun hx hfault hcode => ?_⟩
  · exact enters_iff_ground.2 (.underflow hop hempty)
  · obtain ⟨c, v, hground, rfl⟩ := exec_faulted_of_run hrun hx hfault
    obtain rfl : c = .stackUnderflow := hcode
    exact (faultGround_stackUnderflow_iff.1 hground).2

/-- Settles O31: the grounds of the two faults, which `INF` contradicts; in a run the number of completed instructions bounds
the depth. -/
theorem faultsOfFiniteLimits : Obligations.FaultsOfFiniteLimits := by
  unfold Obligations.FaultsOfFiniteLimits
  refine ⟨fun i s info => ?_, fun s t d hs _ => step_code_ne_stackOverflow hs⟩
  simp only [enters_iff_ground]
  refine ⟨faultGround_arithmeticOverflow_iff, faultGround_stackOverflow_iff, fun hinf hground => ?_,
    fun hinf hground => ?_⟩
  · obtain ⟨-, -, -, r, x, -, hfits⟩ := faultGround_arithmeticOverflow_iff.1 hground
    exact hfits (.of_inf hinf _)
  · obtain ⟨-, -, hfull⟩ := faultGround_stackOverflow_iff.1 hground
    simp [hinf] at hfull

/-- Settles O33: every host operation but `Start` keeps `status` and the record, and `Start` is `State.startRun`. -/
theorem onlyStartLeavesFault : Obligations.OnlyStartLeavesFault := by
  unfold Obligations.OnlyStartLeavesFault
  intro s hfault
  refine ⟨step_in_fault hfault, fun op t r hop => ?_⟩
  by_cases hstart : op = .start
  · subst hstart
    obtain ⟨-, -, rfl, -⟩ := hostOp_start.1 hop
    exact .inr ⟨rfl, rfl, rfl, rfl, rfl, rfl, Memory.read_nil, rfl, rfl⟩
  · obtain ⟨hstatus, hrecord⟩ := hostOp_keeps_status_and_fault hop hstart
    exact .inl ⟨hstart, hstatus.trans hfault, hrecord⟩

end Sys2Proof.Machine
end

section
/-! PROOFS. Power-on and `Start` (70_reset_and_hazards.md R190, R191). -/

namespace Sys2Proof.Machine

open Sys2Proof

/-- The engine has a step in `RUN` alone (40_engine_cycle.md R107). -/
theorem step_ne_next_of_not_run {s : State} (hs : s.status ≠ .run) (t : State) : step s ≠ .next t := fun h =>
  hs (step_ends_completes_or_enters h).1

/-- `ReadStatus` has a move in every state (10_state.md R35). -/
theorem hostOp_readStatus (s : State) :
    hostOp .readStatus s = .ok (s, .status s.status (if s.status = .fault then some s.fault else none)) := rfl

/-- Before a run has ended nothing of it can be read but its status (44_host_readout.md R148, R149). -/
theorem hostOp_cases_of_not_ended {op : HostOp} {s t : State} {r : HostReply} (hs : s.ended = false)
    (h : hostOp op s = .ok (t, r)) : (∃ bytes, op = .loadProgram bytes) ∨ op = .start ∨ op = .readStatus := by
  cases op with
  | loadProgram bytes => exact .inl ⟨bytes, rfl⟩
  | start => exact .inr (.inl rfl)
  | readStatus => exact .inr (.inr rfl)
  | readTrace => simp [hostOp, hs] at h
  | readRV => simp [hostOp, hs] at h
  | readOut first last =>
    have hne : s.status ≠ .done := fun hdone => by simp [State.ended_iff.2 (.inl hdone)] at hs
    simp [hostOp, hne] at h

/-- `Start` has a move where no run is in progress and a program has been loaded (70_reset_and_hazards.md R191). -/
theorem hostOp_start_allowed_iff {s : State} :
    (∃ t r, hostOp .start s = .ok (t, r)) ↔ s.status ≠ .run ∧ s.progLoaded = true := by
  constructor
  · rintro ⟨t, r, h⟩
    obtain ⟨hrun, hloaded, -⟩ := hostOp_start.1 h
    exact ⟨hrun, hloaded⟩
  · rintro ⟨hrun, hloaded⟩
    exact ⟨s.startRun, .accepted, hostOp_start.2 ⟨hrun, hloaded, rfl, rfl⟩⟩

/-- `Start` overwrites every field but the inputs of the run (70_reset_and_hazards.md R190, R191). -/
theorem State.startRun_congr {s s' : State} (hprog : s'.prog = s.prog) (hloaded : s'.progLoaded = s.progLoaded)
    (hparams : s'.params = s.params) : s'.startRun = s.startRun := by
  rw [State.startRun, State.startRun, hprog, hloaded, hparams]

/-- Settles O47: outside `RUN` there is no step, the other reads wait for the end of a run, and `Start` overwrites what
power-on leaves unspecified. -/
theorem powerOnIsIdle : Obligations.PowerOnIsIdle := by
  unfold Obligations.PowerOnIsIdle
  refine ⟨fun p => rfl, fun s hidle => ⟨step_ne_next_of_not_run (by simp [hidle]), fun op t r hop => ?_, ?_, ?_⟩⟩
  · exact hostOp_cases_of_not_ended (by simp [State.ended, hidle]) hop
  · intro t r hop s' hprog hloaded hparams hidle'
    obtain ⟨-, hl, rfl, rfl⟩ := hostOp_start.1 hop
    exact hostOp_start.2
      ⟨by simp [hidle'], hloaded.trans hl, (State.startRun_congr hprog hloaded hparams).symm, rfl⟩
  · simp [hostOp_readStatus, hidle]

/-- Settles O48: the move `Start` has is `State.startRun`, whose fields are those R191 lists. -/
theorem startInitialisesTheRun : Obligations.StartInitialisesTheRun := by
  unfold Obligations.StartInitialisesTheRun
  refine fun s => ⟨hostOp_start_allowed_iff, fun t r hop => ?_⟩
  obtain ⟨-, -, rfl, -⟩ := hostOp_start.1 hop
  exact ⟨Memory.read_nil, rfl, rfl, rfl, rfl, rfl, rfl, rfl, rfl, rfl, rfl, rfl, rfl, rfl, rfl⟩

end Sys2Proof.Machine
end

section
/-! PROOFS. What the writes of an instruction do to the values a state holds, to the depth of the stack and to the result
vector: said once over `InstrEffect`, so that every invariant of a run is read off these lemmas. -/

namespace Sys2Proof.Machine

open Sys2Proof

/-! ## The operands -/

theorem literal_nonneg (arg : Argument) : 0 ≤ literal arg :=
  Int.natCast_nonneg _

theorem literal_le_maxConstant (arg : Argument) : literal arg ≤ maxConstant := by
  have harg := arg.isLt
  simp only [literal, maxConstant]
  omega

/-- A legal `CELL_BITS` is at least 64, so a non-negative value of at most 63 bits fits every cell (00_scope.md R5, R7). -/
theorem fits_of_lt_two_pow {p : Params} (hp : p.valid = true) {v : Int} (hnonneg : 0 ≤ v) (hlt : v < 2 ^ 63) :
    fits p v = true := by
  cases hbits : p.cellBits with
  | inf => exact fits_inf hbits v
  | finite w =>
    have hw : 64 ≤ w := by
      simp only [Params.valid, Params.cellBitsValid, hbits, Bool.and_eq_true, decide_eq_true_eq] at hp
      exact hp.1
    have hpow : (2 ^ 63 : Int) ≤ 2 ^ (w - 1) := pow_le_pow_right₀ (by norm_num) (by omega)
    exact (fits_finite hbits).2 ⟨by omega, by omega⟩

theorem fits_literal {p : Params} (hp : p.valid = true) (arg : Argument) : fits p (literal arg) = true := by
  have hle := literal_le_maxConstant arg
  exact fits_of_lt_two_pow hp (literal_nonneg arg) (by rw [maxConstant] at hle; omega)

/-- The fetched instruction has the fields of the record at `pc` (40_engine_cycle.md R102, R103). -/
theorem State.fetchInstr_fields (s : State) :
    (s.fetchInstr.opcode, s.fetchInstr.argument) = decodeFields (progRead s.prog s.pc) := by
  rw [State.fetchInstr, Laws.decodeBytes_opcode, Laws.decodeBytes_argument]

/-! ## The values of a state -/

/-- Every value that the stack, the data memory and the result vector hold satisfies `P`. -/
structure ValuesSatisfy (P : Int → Prop) (s : State) : Prop where
  stack : ∀ v ∈ s.stack, P v
  mem : ∀ a, P (s.mem.read a)
  rv : ∀ v ∈ s.rv, P v

variable {P Q : Int → Prop} {s s' t : State} {i : Instr}

theorem ValuesSatisfy.mono (h : ValuesSatisfy P s) (hPQ : ∀ v, P v → Q v) : ValuesSatisfy Q s :=
  ⟨fun v hv => hPQ v (h.stack v hv), fun a => hPQ _ (h.mem a), fun v hv => hPQ v (h.rv v hv)⟩

/-- The bookkeeping of completion writes no value. -/
theorem ValuesSatisfy.completed (h : ValuesSatisfy P s) (i : Instr) : ValuesSatisfy P (s.completed i) :=
  ⟨h.stack, h.mem, h.rv⟩

theorem ValuesSatisfy.push {v : Int} (h : ValuesSatisfy P s) (hv : P v) : ValuesSatisfy P (s.push v) where
  stack w hw := by
    rcases List.mem_append.1 hw with hold | hnew
    · exact h.stack w hold
    · rwa [List.mem_singleton.1 hnew]
  mem := h.mem
  rv := h.rv

theorem ValuesSatisfy.pop (h : ValuesSatisfy P s) : ValuesSatisfy P s.pop :=
  ⟨fun v hv => h.stack v (List.dropLast_subset _ hv), h.mem, h.rv⟩

theorem ValuesSatisfy.memWrite {v : Int} (h : ValuesSatisfy P s) (hwf : s.mem.wf = true) (a : Nat) (hv : P v) :
    ValuesSatisfy P (s.memWrite a v) where
  stack := h.stack
  mem b := by
    rw [State.memWrite_mem, Memory.read_write hwf]
    split_ifs
    · exact hv
    · exact h.mem b
  rv := h.rv

theorem ValuesSatisfy.appendResult {v : Int} (h : ValuesSatisfy P s) (hv : P v) :
    ValuesSatisfy P (s.appendResult v) where
  stack := h.stack
  mem := h.mem
  rv w hw := by
    rcases List.mem_append.1 hw with hold | hnew
    · exact h.rv w hold
    · rwa [List.mem_singleton.1 hnew]

theorem ValuesSatisfy.top {r : List Int} {v : Int} (h : ValuesSatisfy P s) (hstack : s.stack = r ++ [v]) : P v :=
  h.stack v (by simp [hstack])

/-! ## The writes of an instruction -/

/-- The only values that an instruction writes beside those it reads are a literal and a product that fits. `Q` may be
weaker than `P`, for a bound that grows with the result vector. -/
theorem InstrEffect.valuesSatisfy (h : InstrEffect s i s') (hwf : s.mem.wf = true) (hs : ValuesSatisfy P s)
    (hPQ : ∀ v, P v → Q v) (hliteral : ∀ arg, Q (literal arg))
    (hproduct : i.opcode = 3 → ∀ v m, P v → P m → fits s.params (v * m) = true → Q (v * m)) :
    ValuesSatisfy Q s' := by
  have hsQ := hs.mono hPQ
  cases h with
  | loadConstant _ => exact hsQ.push (hliteral _)
  | loadFromMemory _ _ _ => exact hsQ.pop.push (hsQ.mem _)
  | storeToMemory hstack _ => exact hsQ.pop.memWrite hwf _ (hsQ.top hstack)
  | multiply hstack _ hfits =>
    have hresult := hproduct rfl _ _ (hs.top hstack) (hs.mem _) hfits
    exact ((hsQ.pop.push hresult).memWrite hwf _ hresult).appendResult hresult

theorem InstrEffect.mem_wf (h : InstrEffect s i s') (hwf : s.mem.wf = true) : s'.mem.wf = true := by
  cases h with
  | loadConstant _ => exact hwf
  | loadFromMemory _ _ _ => exact hwf
  | storeToMemory _ hlt => exact Memory.wf_write hwf hlt _
  | multiply _ hlt _ => exact Memory.wf_write hwf hlt _

/-- `LOAD_CONSTANT` alone adds an entry to the stack, `STORE_TO_MEMORY` alone takes one away (10_state.md R34). -/
theorem InstrEffect.stack_length (h : InstrEffect s i s') :
    s'.stack.length + (if i.opcode = 2 then 1 else 0) = s.stack.length + (if i.opcode = 1 then 1 else 0) := by
  cases h with
  | loadConstant _ => simp [Instr.opcode]
  | loadFromMemory hstack _ _ => simp [Instr.opcode, hstack]
  | storeToMemory hstack _ => simp [Instr.opcode, hstack]
  | multiply hstack _ _ => simp [Instr.opcode, hstack]

theorem InstrEffect.stack_length_le (h : InstrEffect s i s') : s'.stack.length ≤ s.stack.length + 1 := by
  have hlength := h.stack_length
  split_ifs at hlength <;> omega

/-- A push is made only onto a stack that is not full (41_load_constant.md R120). -/
theorem InstrEffect.depthAdmitted (h : InstrEffect s i s') (hs : depthAdmitted s.params s.stack.length) :
    depthAdmitted s.params s'.stack.length := by
  intro d hd
  have hlength := h.stack_length
  have hle := hs d hd
  cases h with
  | loadConstant hroom =>
    have hne : s.params.stackDepth ≠ .finite s.stack.length := mt stackFull_iff.2 (Bool.eq_false_iff.1 hroom)
    have hlt : s.stack.length < d := lt_of_le_of_ne hle fun heq => hne (heq ▸ hd)
    rwa [State.push_stack, List.length_append]
  | _ =>
    simp only [Instr.opcode] at hlength
    simp at hlength ⊢
    omega

/-- `MULTIPLY` alone appends to the result vector, and what it appends is the stack top (43_multiply.md R135). -/
theorem InstrEffect.rv_eq (h : InstrEffect s i s') :
    s'.rv = s.rv ++ (if i.opcode = 3 then s'.stack.getLast? else none).toList := by
  cases h with
  | multiply _ _ _ => simp [Instr.opcode]
  | _ => simp [Instr.opcode]

theorem InstrEffect.rv_length (h : InstrEffect s i s') :
    s'.rv.length = s.rv.length + (if i.opcode = 3 then 1 else 0) := by
  cases h <;> simp [Instr.opcode]

theorem InstrEffect.rv_length_le (h : InstrEffect s i s') : s'.rv.length ≤ s.rv.length + 1 := by
  have hlength := h.rv_length
  split_ifs at hlength <;> omega

end Sys2Proof.Machine
end

section
/-! PROOFS. The invariants of a run (10_state.md R34, 43_multiply.md R138) and of engine and host together: `Start` or
power-on establishes each, and each outcome of a step (end of program, completion, fault entry) keeps it. -/

namespace Sys2Proof.Machine

open Sys2Proof

variable {s s' t : State} {i : Instr}

/-! ## The state of a run -/

/-- What `RunInv` says of every value: it fits a cell and is not negative. -/
def CellValue (p : Params) (v : Int) : Prop :=
  fits p v = true ∧ 0 ≤ v

theorem RunInv.values (h : RunInv s) : ValuesSatisfy (CellValue s.params) s where
  stack v hv := ⟨h.stack_fits v hv, h.stack_nonneg v hv⟩
  mem a := ⟨h.mem_fits a, h.mem_nonneg a⟩
  rv v hv := ⟨h.rv_fits v hv, h.rv_nonneg v hv⟩

theorem RunInv.runPosition (h : RunInv s) : RunPosition s where
  pc_eq := h.pc_eq
  pc_le := h.pc_le
  trace_length := h.trace_length
  done_at_end := h.done_at_end
  fault_at_record hf := by
    obtain ⟨-, hstep, hroom, -⟩ := h.fault_recorded hf
    exact ⟨hroom, hstep⟩

theorem InstrEffect.cellValues (h : InstrEffect s i s') (hs : RunInv s) : ValuesSatisfy (CellValue s.params) s' :=
  h.valuesSatisfy hs.mem_wf hs.values (fun _ hv => hv)
    (fun arg => ⟨fits_literal hs.params_valid arg, literal_nonneg arg⟩)
    (fun _ _ _ hv hm hfits => ⟨hfits, mul_nonneg hv.2 hm.2⟩)

theorem RunInv.startRun (hp : s.params.valid = true) : RunInv s.startRun where
  params_valid := hp
  mem_wf := rfl
  pc_eq := rfl
  pc_le := Nat.zero_le _
  trace_length := rfl
  rv_length := le_refl 0
  depth_le := le_refl 0
  depth_admitted _ _ := Nat.zero_le _
  stack_fits := nofun
  mem_fits _ := fits_literal hp 0
  rv_fits := nofun
  stack_nonneg := nofun
  mem_nonneg _ := le_refl 0
  rv_nonneg := nofun
  done_at_end := nofun
  fault_recorded := nofun
  no_fault_clear _ := rfl

/-- After power-on the state is the one `Start` makes but for the status, and `IDLE` says no more of the program. -/
theorem RunInv.powerOn {p : Params} (hp : p.valid = true) : RunInv (State.powerOn p) :=
  { RunInv.startRun (s := State.powerOn p) hp with
    done_at_end := nofun
    fault_recorded := nofun
    no_fault_clear := fun _ => rfl }

theorem RunInv.endOfProgram (hs : RunInv s) (hrun : s.status = .run) (hend : s.prog.length < s.pc + 5) :
    RunInv { s with status := .done } :=
  { hs with
    done_at_end := fun _ => hend
    fault_recorded := nofun
    no_fault_clear := fun _ => hs.no_fault_clear (by simp [hrun]) }

theorem InstrEffect.keeps_runInv (h : InstrEffect s i s') (hrun : s.status = .run)
    (hroom : s.pc + 5 ≤ s.prog.length) (hs : RunInv s) : RunInv (s'.completed i) := by
  have hc := h.completes
  have hpos := hc.keeps_runPosition hrun hroom hs.runPosition
  have hvalues := (h.cellValues hs).completed i
  have hadmitted := h.depthAdmitted hs.depth_admitted
  rw [← hc.params] at hvalues hadmitted
  have hdepth := h.stack_length_le.trans (Nat.add_le_add_right hs.depth_le 1)
  have hrv := h.rv_length_le.trans (Nat.add_le_add_right hs.rv_length 1)
  have hstatus : s'.status = .run := hc.status.trans hrun
  exact
    { params_valid := by rw [hc.params]; exact hs.params_valid
      mem_wf := h.mem_wf hs.mem_wf
      pc_eq := hpos.pc_eq
      pc_le := hpos.pc_le
      trace_length := hpos.trace_length
      rv_length := by rw [hc.stepCount]; exact hrv
      depth_le := by rw [hc.stepCount]; exact hdepth
      depth_admitted := hadmitted
      stack_fits := fun v hv => (hvalues.stack v hv).1
      mem_fits := fun a => (hvalues.mem a).1
      rv_fits := fun v hv => (hvalues.rv v hv).1
      stack_nonneg := fun v hv => (hvalues.stack v hv).2
      mem_nonneg := fun a => (hvalues.mem a).2
      rv_nonneg := fun v hv => (hvalues.rv v hv).2
      done_at_end := hpos.done_at_end
      fault_recorded := fun hf => by simp [hstatus] at hf
      no_fault_clear := fun _ => hc.fault.trans (hs.no_fault_clear (by simp [hrun])) }

theorem RunInv.faulted {c : FaultCode} {v : Int} (hs : RunInv s) (hc : c ≠ .none)
    (hroom : s.pc + 5 ≤ s.prog.length) : RunInv (s.faulted c v s.fetchInstr) :=
  { hs with
    done_at_end := nofun
    fault_recorded := fun _ => ⟨hc, rfl, hroom, s.fetchInstr_fields⟩
    no_fault_clear := fun hne => absurd rfl hne }

theorem step_keeps_runInv (hs : RunInv s) (h : step s = .next t) : RunInv t := by
  rcases step_cases h with ⟨hrun, hend, rfl⟩ | ⟨hrun, hroom, hx⟩
  · exact hs.endOfProgram hrun hend
  · rcases exec_cases hx with ⟨s', heffect, rfl⟩ | ⟨c, v, hground, rfl⟩
    · exact heffect.keeps_runInv hrun hroom hs
    · exact hs.faulted hground.code_ne_none hroom

/-! ## What the logs say -/

theorem Completes.completedCount (h : Completes i s t) (op : Opcode) :
    t.completedCount op = s.completedCount op + (if i.opcode = op then 1 else 0) := by
  rw [State.completedCount, State.completedCount, h.trace, List.countP_append, List.countP_singleton]
  simp only [beq_iff_eq]

theorem filterMap_result_singleton (e : TraceEntry) : [e].filterMap TraceEntry.result = e.result.toList := by
  cases h : e.result <;> simp [h]

theorem TraceInv.startRun (s : State) : TraceInv s.startRun where
  fields := rfl
  last := rfl
  results := rfl
  balance := rfl

theorem InstrEffect.keeps_traceInv (h : InstrEffect s s.fetchInstr s') (hpc : s.pc = 5 * s.stepCount)
    (hs : TraceInv s) : TraceInv (s'.completed s.fetchInstr) := by
  have hc := h.completes
  exact
    { fields := by
        rw [hc.trace, hc.stepCount, hc.prog, List.map_append, List.range_succ, List.map_append, hs.fields,
          List.map_singleton, List.map_singleton, s.fetchInstr_fields, hpc]
      last := by
        rw [hc.trace, List.getLast?_concat]
        rfl
      results := by
        rw [hc.trace, List.filterMap_append, ← hs.results, filterMap_result_singleton]
        exact h.rv_eq
      balance := by
        have hlength := h.stack_length
        have hbalance := hs.balance
        rw [hc.completedCount, hc.completedCount, State.completed_stack]
        omega }

theorem step_keeps_traceInv (hpc : s.pc = 5 * s.stepCount) (hs : TraceInv s) (h : step s = .next t) : TraceInv t := by
  rcases step_cases h with ⟨-, -, rfl⟩ | ⟨-, -, hx⟩
  · exact ⟨hs.fields, hs.last, hs.results, hs.balance⟩
  · rcases exec_cases hx with ⟨s', heffect, rfl⟩ | ⟨c, v, -, rfl⟩
    · exact heffect.keeps_traceInv hpc hs
    · exact ⟨hs.fields, hs.last, hs.results, hs.balance⟩

/-! ## The growth of values -/

/-- The bound on every value after `k` completed `MULTIPLY` (43_multiply.md R138). -/
def growthBound (k : Nat) : Int :=
  maxConstant ^ 2 ^ k

theorem growthInv_iff : GrowthInv s ↔ ValuesSatisfy (· ≤ growthBound s.rv.length) s :=
  ⟨fun h => ⟨h.stack_le, h.mem_le, h.rv_le⟩, fun h => ⟨h.stack, h.mem, h.rv⟩⟩

theorem growthBound_zero : growthBound 0 = maxConstant :=
  pow_one _

/-- One more `MULTIPLY` squares the bound. -/
theorem growthBound_succ (k : Nat) : growthBound (k + 1) = growthBound k * growthBound k := by
  rw [growthBound, growthBound, pow_succ, pow_mul, sq]

theorem one_le_maxConstant : 1 ≤ maxConstant := by
  simp [maxConstant]

theorem growthBound_mono {k l : Nat} (h : k ≤ l) : growthBound k ≤ growthBound l :=
  pow_le_pow_right₀ one_le_maxConstant (Nat.pow_le_pow_right (by norm_num) h)

theorem growthBound_nonneg (k : Nat) : 0 ≤ growthBound k :=
  pow_nonneg (zero_le_one.trans one_le_maxConstant) _

theorem literal_le_growthBound (arg : Argument) (k : Nat) : literal arg ≤ growthBound k :=
  calc literal arg ≤ growthBound 0 := growthBound_zero ▸ literal_le_maxConstant arg
    _ ≤ growthBound k := growthBound_mono (Nat.zero_le k)

theorem mul_le_growthBound_succ {k : Nat} {v m : Int} (hv : v ≤ growthBound k) (hm : m ≤ growthBound k)
    (hm0 : 0 ≤ m) : v * m ≤ growthBound (k + 1) := by
  rw [growthBound_succ]
  exact mul_le_mul hv hm hm0 (growthBound_nonneg k)

theorem GrowthInv.startRun (s : State) : GrowthInv s.startRun where
  stack_le := nofun
  mem_le _ := growthBound_nonneg 0
  rv_le := nofun

theorem InstrEffect.keeps_growthInv (h : InstrEffect s i s') (hs : RunInv s) (hg : GrowthInv s) :
    GrowthInv (s'.completed i) := by
  have hbounded : ValuesSatisfy (fun v => 0 ≤ v ∧ v ≤ growthBound s.rv.length) s :=
    ⟨fun v hv => ⟨hs.stack_nonneg v hv, hg.stack_le v hv⟩, fun a => ⟨hs.mem_nonneg a, hg.mem_le a⟩,
      fun v hv => ⟨hs.rv_nonneg v hv, hg.rv_le v hv⟩⟩
  have hlength := h.rv_length
  have hafter : ValuesSatisfy (· ≤ growthBound s'.rv.length) s' := by
    refine h.valuesSatisfy hs.mem_wf hbounded (fun v hv => ?_) (fun arg => literal_le_growthBound arg _)
      (fun hop v m hv hm _ => ?_)
    · exact hv.2.trans (growthBound_mono (by omega))
    · rw [hlength, if_pos hop]
      exact mul_le_growthBound_succ hv.2 hm.2 hm.1
  exact growthInv_iff.2 (hafter.completed i)

theorem step_keeps_growthInv (hs : RunInv s) (hg : GrowthInv s) (h : step s = .next t) : GrowthInv t := by
  rcases step_cases h with ⟨-, -, rfl⟩ | ⟨-, -, hx⟩
  · exact ⟨hg.stack_le, hg.mem_le, hg.rv_le⟩
  · rcases exec_cases hx with ⟨s', heffect, rfl⟩ | ⟨c, v, -, rfl⟩
    · exact heffect.keeps_growthInv hs hg
    · exact ⟨hg.stack_le, hg.mem_le, hg.rv_le⟩

/-- Before the first `MULTIPLY` has completed, every product is below `2^48` and fits (43_multiply.md R138). -/
theorem fits_product_of_rv_eq_nil (hs : RunInv s) (hg : GrowthInv s) (hrv : s.rv = []) {v : Int} (hv : v ∈ s.stack)
    (a : Nat) : fits s.params (v * s.mem.read a) = true := by
  have hstack := hg.stack_le v hv
  have hmem := hg.mem_le a
  rw [hrv] at hstack hmem
  have hle := mul_le_growthBound_succ (k := 0) hstack hmem (hs.mem_nonneg a)
  refine fits_of_lt_two_pow hs.params_valid (mul_nonneg (hs.stack_nonneg v hv) (hs.mem_nonneg a)) (hle.trans_lt ?_)
  norm_num [growthBound, maxConstant]

/-! ## Engine and host together -/

variable {p : Params}

theorem SystemInv.powerOn (p : Params) : SystemInv p (State.powerOn p) where
  params := rfl
  mem_wf := rfl
  pc_eq := rfl
  trace_length := rfl
  rv_length := le_refl 0
  depth_le := le_refl 0
  fault_iff := by simp [State.powerOn, FaultRecord.cleared]
  fault_step := nofun
  run_loaded h := absurd rfl h

/-- Outside `FAULT` no fault is recorded. -/
theorem SystemInv.code_eq_none (hs : SystemInv p s) (hrun : s.status = .run) : s.fault.code = .none := by
  have hiff := hs.fault_iff
  rw [hrun] at hiff
  simpa using hiff

theorem SystemInv.endOfProgram (hs : SystemInv p s) (hrun : s.status = .run) :
    SystemInv p { s with status := .done } :=
  { hs with
    fault_iff := by simp [hs.code_eq_none hrun]
    fault_step := nofun
    run_loaded := fun _ => hs.run_loaded (by simp [hrun]) }

theorem InstrEffect.keeps_systemInv (h : InstrEffect s i s') (hrun : s.status = .run) (hs : SystemInv p s) :
    SystemInv p (s'.completed i) := by
  have hc := h.completes
  have hstatus : s'.status = .run := hc.status.trans hrun
  have hcode : s'.fault.code = .none := (congrArg FaultRecord.code hc.fault).trans (hs.code_eq_none hrun)
  exact
    { params := hc.params.trans hs.params
      mem_wf := h.mem_wf hs.mem_wf
      pc_eq := by rw [hc.pc, hc.stepCount, hs.pc_eq]; omega
      trace_length := by rw [hc.trace, hc.stepCount, List.length_append, hs.trace_length, List.length_singleton]
      rv_length := by rw [hc.stepCount]; exact h.rv_length_le.trans (Nat.add_le_add_right hs.rv_length 1)
      depth_le := by rw [hc.stepCount]; exact h.stack_length_le.trans (Nat.add_le_add_right hs.depth_le 1)
      fault_iff := by simp [hstatus, hcode]
      fault_step := fun hf => by simp [hstatus] at hf
      run_loaded := fun _ => hc.progLoaded.trans (hs.run_loaded (by simp [hrun])) }

theorem SystemInv.faulted {c : FaultCode} {v : Int} (hs : SystemInv p s) (hrun : s.status = .run) (hc : c ≠ .none) :
    SystemInv p (s.faulted c v i) :=
  { hs with
    fault_iff := ⟨fun _ => hc, fun _ => rfl⟩
    fault_step := fun _ => rfl
    run_loaded := fun _ => hs.run_loaded (by simp [hrun]) }

theorem step_keeps_systemInv (hs : SystemInv p s) (h : step s = .next t) : SystemInv p t := by
  rcases step_cases h with ⟨hrun, -, rfl⟩ | ⟨hrun, -, hx⟩
  · exact hs.endOfProgram hrun
  · rcases exec_cases hx with ⟨s', heffect, rfl⟩ | ⟨c, v, hground, rfl⟩
    · exact heffect.keeps_systemInv hrun hs
    · exact hs.faulted hrun hground.code_ne_none

theorem SystemInv.startRun (hs : SystemInv p s) (hloaded : s.progLoaded = true) : SystemInv p s.startRun where
  params := hs.params
  mem_wf := rfl
  pc_eq := rfl
  trace_length := rfl
  rv_length := le_refl 0
  depth_le := le_refl 0
  fault_iff := by simp [FaultRecord.cleared]
  fault_step := nofun
  run_loaded _ := hloaded

theorem hostOp_keeps_systemInv {op : HostOp} {r : HostReply} (hs : SystemInv p s) (h : hostOp op s = .ok (t, r)) :
    SystemInv p t := by
  rcases hostOp_cases h with ⟨-, bytes, rfl⟩ | ⟨-, hloaded, rfl⟩ | rfl
  · exact { hs with run_loaded := fun _ => rfl }
  · exact hs.startRun hloaded
  · exact hs

theorem Reachable.systemInv (h : Reachable p s) : SystemInv p s := by
  induction h with
  | powerOn => exact SystemInv.powerOn p
  | engine _ hstep ih => exact step_keeps_systemInv ih hstep
  | host _ hop ih => exact hostOp_keeps_systemInv ih hop

end Sys2Proof.Machine
end

section
/-! PROOFS. The statements about the invariants of a run and of engine and host. -/

namespace Sys2Proof.Machine

open Sys2Proof

/-- Settles O35: by the three outcomes of a step; a completed instruction keeps it by `InstrEffect.keeps_runInv`. -/
theorem runInvariantKeptByStep : Obligations.RunInvariantKeptByStep := by
  unfold Obligations.RunInvariantKeptByStep
  exact fun s t => step_keeps_runInv

/-- Settles O36: completion extends each of the four equations by the entry it appends; of `RunInv` it needs that `pc` is
at record `step`. -/
theorem traceInvariantKeptByStep : Obligations.TraceInvariantKeptByStep := by
  unfold Obligations.TraceInvariantKeptByStep
  exact fun s t hs => step_keeps_traceInv hs.pc_eq

/-- Settles O37: each completed `MULTIPLY` squares the bound, and the factors are not negative in a run. -/
theorem growthBoundKeptByStep : Obligations.GrowthBoundKeptByStep := by
  unfold Obligations.GrowthBoundKeptByStep
  exact fun s t => step_keeps_growthInv

/-- Settles O39: power-on establishes `SystemInv`, steps and host operations keep it, and induction over `Reachable`. -/
theorem systemInvariant : Obligations.SystemInvariant := by
  unfold Obligations.SystemInvariant
  exact fun p => ⟨.powerOn p, fun s t => step_keeps_systemInv, fun s t op r => hostOp_keeps_systemInv,
    fun s => Reachable.systemInv⟩

/-- Settles O38: `Start` empties the logs and the stack, and `State.reset` differs from such a state in its status. -/
theorem startEstablishesInvariants : Obligations.StartEstablishesInvariants := by
  unfold Obligations.StartEstablishesInvariants
  refine ⟨fun s t r hp hop => ?_, RunInv.powerOn rfl⟩
  obtain ⟨-, -, rfl, -⟩ := hostOp_start.1 hop
  exact ⟨.startRun hp, .startRun s, .startRun s⟩

/-- Settles O46: the ground of `ArithmeticOverflow` is a product that does not fit, and with an empty result vector every
product fits. -/
theorem firstMultiplyNeverOverflows : Obligations.FirstMultiplyNeverOverflows := by
  unfold Obligations.FirstMultiplyNeverOverflows
  intro arg s hs hg hrv henters
  obtain ⟨-, -, -, r, v, hstack, hfits⟩ := faultGround_arithmeticOverflow_iff.1 (enters_iff_ground.1 henters)
  exact hfits (fits_iff.1 (fits_product_of_rv_eq_nil hs hg hrv (by simp [hstack]) _))

end Sys2Proof.Machine
end

section
/-! PROOFS. The bytes that the decoder ignores (20_memory.md R51, 30_encoding.md R78, R79): an instruction does not depend on
the program at all, and the fetch depends on the decoded fields of the record at `pc` alone. -/

namespace Sys2Proof.Machine

open Sys2Proof

section

variable {s s' : State} {i : Instr} {q : List Byte}

/-- No write of an instruction reads the program. -/
theorem InstrEffect.withProg (h : InstrEffect s i s') (q : List Byte) :
    InstrEffect (s.withProg q) i (s'.withProg q) := by
  cases h with
  | loadConstant hroom => exact .loadConstant hroom
  | loadFromMemory hstack hnonneg hlt => exact .loadFromMemory hstack hnonneg hlt
  | storeToMemory hstack hlt => exact .storeToMemory hstack hlt
  | multiply hstack hlt hfits => exact .multiply hstack hlt hfits

/-- No check of an instruction reads the program. -/
theorem FaultGround.withProg {c : FaultCode} {v : Int} (h : FaultGround s i c v) (q : List Byte) :
    FaultGround (s.withProg q) i c v := by
  cases h with
  | illegal hk => exact .illegal hk
  | full hfull => exact .full hfull
  | underflow hop hempty => exact .underflow hop hempty
  | loadRange hstack hrange => exact .loadRange hstack hrange
  | directRange hop hne hrange => exact .directRange hop hne hrange
  | overflow hstack hlt hfits => exact .overflow hstack hlt hfits

theorem exec_withProg (i : Instr) (s : State) (q : List Byte) :
    exec i (s.withProg q) = mapNext (fun t => t.withProg q) (exec i s) := by
  rcases exec_total i s with ⟨s', heffect, hx⟩ | ⟨c, v, hground, hx⟩
  · rw [hx, exec_of_effect (heffect.withProg q)]
    rfl
  · rw [hx, exec_of_ground (hground.withProg q)]
    rfl

/-- The answer of a faulted engine is no next state. -/
theorem mapNext_faultStop (f : State → State) (r : FaultRecord) : mapNext f (faultStop r) = faultStop r := by
  unfold faultStop
  split <;> rfl

/-- The end of the program is at the same `pc`: trailing partial records do not count (20_memory.md R51). -/
theorem SameRecords.at_end_iff (hq : SameRecords s.prog q) (hpos : RunPosition s) :
    q.length < s.pc + 5 ↔ s.prog.length < s.pc + 5 := by
  have hpc := hpos.pc_eq
  have hle := hpos.pc_le
  have hrecords := hq.1
  omega

theorem SameRecords.fetchInstr_eq (hq : SameRecords s.prog q) (hpos : RunPosition s)
    (hroom : s.pc + 5 ≤ s.prog.length) : (s.withProg q).fetchInstr = s.fetchInstr := by
  have hpc := hpos.pc_eq
  have hfields := hq.2 s.stepCount (by omega)
  rw [← hpc] at hfields
  rw [State.fetchInstr, State.fetchInstr, decodeBytes, decodeBytes, State.withProg_prog, State.withProg_pc, hfields]

theorem step_withProg (hpos : RunPosition s) (hq : SameRecords s.prog q) :
    step (s.withProg q) = mapNext (fun t => t.withProg q) (step s) := by
  cases hstatus : s.status with
  | idle => simp only [step, State.withProg_status, hstatus, mapNext]
  | done => simp only [step, State.withProg_status, hstatus, mapNext]
  | fault => simp only [step, State.withProg_status, State.withProg_fault, hstatus, mapNext_faultStop]
  | run =>
    by_cases hend : s.prog.length < s.pc + 5
    · rw [step_at_end hstatus hend, step_at_end (s := s.withProg q) hstatus ((hq.at_end_iff hpos).2 hend)]
      rfl
    · have hend' : ¬ q.length < s.pc + 5 := mt (hq.at_end_iff hpos).1 hend
      rw [step_exec hstatus (Nat.le_of_not_lt hend), step_exec (s := s.withProg q) hstatus (Nat.le_of_not_lt hend'),
        hq.fetchInstr_eq hpos (Nat.le_of_not_lt hend), exec_withProg]

end

/-- Settles O44: the end of the program and the fetched instruction are the same, and `exec` does not read the program. -/
theorem ignoredBytesDoNotInfluenceTheRun : Obligations.IgnoredBytesDoNotInfluenceTheRun := by
  unfold Obligations.IgnoredBytesDoNotInfluenceTheRun
  exact fun s q hs => step_withProg hs.runPosition

end Sys2Proof.Machine
end

section
/-! PROOFS. The frames of the instructions (20_memory.md R57, 60_exceptions.md R166): what the writes of an instruction leave
as it was. -/

namespace Sys2Proof.Machine

open Sys2Proof

section

variable {s s' t : State} {i : Instr}

theorem InstrEffect.mem_eq (h : InstrEffect s i s') (h2 : i.opcode ≠ 2) (h3 : i.opcode ≠ 3) : s'.mem = s.mem := by
  cases h with
  | loadConstant _ => rfl
  | loadFromMemory _ _ _ => rfl
  | storeToMemory _ _ => exact absurd rfl h2
  | multiply _ _ _ => exact absurd rfl h3

/-- No instruction writes a cell but the one its argument names. -/
theorem InstrEffect.read_other {a : Nat} (h : InstrEffect s i s') (ha : a ≠ i.argument.toNat) :
    s'.mem.read a = s.mem.read a := by
  cases h with
  | loadConstant _ => rfl
  | loadFromMemory _ _ _ => rfl
  | storeToMemory _ _ => exact Memory.read_write_other ha
  | multiply _ _ _ => exact Memory.read_write_other ha

/-- A storing form completes only with an address in range (20_memory.md R54). -/
theorem InstrEffect.directAddress_eq (h : InstrEffect s i s') (hop : i.opcode = 2 ∨ i.opcode = 3) :
    directAddress i.argument = some i.argument.toNat := by
  cases h with
  | loadConstant _ => simp [Instr.opcode] at hop
  | loadFromMemory _ _ _ => simp [Instr.opcode] at hop
  | storeToMemory _ hlt => exact directAddress_eq_some.2 ⟨hlt, rfl⟩
  | multiply _ hlt _ => exact directAddress_eq_some.2 ⟨hlt, rfl⟩

/-- No instruction touches an entry under the top. -/
theorem InstrEffect.dropLast_stack_le (h : InstrEffect s i s') : s.stack.dropLast <+: s'.stack := by
  cases h with
  | loadConstant _ => exact (List.dropLast_prefix _).trans (List.prefix_append _ _)
  | loadFromMemory _ _ _ => exact List.prefix_append _ _
  | storeToMemory _ _ => exact List.prefix_refl _
  | multiply _ _ _ => exact List.prefix_append _ _

/-- `LOAD_CONSTANT` leaves every entry. -/
theorem InstrEffect.stack_le (h : InstrEffect s i s') (h2 : i.opcode ≠ 2) (h3 : i.opcode ≠ 3) (h7 : i.opcode ≠ 7) :
    s.stack <+: s'.stack := by
  cases h with
  | loadConstant _ => exact List.prefix_append _ _
  | loadFromMemory _ _ _ => exact absurd rfl h7
  | storeToMemory _ _ => exact absurd rfl h2
  | multiply _ _ _ => exact absurd rfl h3

theorem InstrEffect.rv_eq_of_ne (h : InstrEffect s i s') (h3 : i.opcode ≠ 3) : s'.rv = s.rv := by
  rw [h.rv_eq, if_neg h3, Option.toList_none, List.append_nil]

theorem InstrEffect.rv_le (h : InstrEffect s i s') : s.rv <+: s'.rv := by
  rw [h.rv_eq]
  exact List.prefix_append _ _

/-- The trace tells completion from a fault entry. -/
theorem Completes.trace_ne (h : Completes i s t) : t.trace ≠ s.trace := by
  rw [h.trace]
  simp

end

/-- Settles O26: by completion, whose writes leave memory and result vector, and fault entry, which leaves all. -/
theorem frameOfNonStoringForms : Obligations.FrameOfNonStoringForms := by
  unfold Obligations.FrameOfNonStoringForms
  intro i s t h2 h3 hx
  obtain ⟨hprog, hloaded, hparams⟩ := exec_keeps_inputs hx
  rcases exec_cases hx with ⟨s', heffect, rfl⟩ | ⟨c, v, -, rfl⟩
  · have hc := heffect.completes
    have hmem := heffect.mem_eq h2 h3
    exact ⟨fun a => congrArg (Memory.read · a) hmem, hmem, heffect.rv_eq_of_ne h3, hprog, hloaded, hparams,
      fun _ => ⟨hc.fault, hc.status⟩, heffect.dropLast_stack_le, heffect.stack_le h2 h3⟩
  · exact ⟨fun _ => rfl, rfl, rfl, hprog, hloaded, hparams, fun hne => absurd rfl hne, List.dropLast_prefix _,
      fun _ => List.prefix_refl _⟩

/-- Settles O27: by completion, which writes the cell its argument names, and fault entry, which leaves all. -/
theorem frameOfStoringForms : Obligations.FrameOfStoringForms := by
  unfold Obligations.FrameOfStoringForms
  intro i s t hop hx
  obtain ⟨hprog, hloaded, hparams⟩ := exec_keeps_inputs hx
  rcases exec_cases hx with ⟨s', heffect, rfl⟩ | ⟨c, v, -, rfl⟩
  · have hc := heffect.completes
    have haddr := heffect.directAddress_eq hop
    refine ⟨fun n hn a ha => ?_, fun hnone => ?_, fun htrace => absurd htrace hc.trace_ne, fun h2 => ?_,
      fun _ => ⟨heffect.rv_length_le, heffect.rv_le⟩, heffect.dropLast_stack_le, hprog, hloaded, hparams,
      fun _ => ⟨hc.fault, hc.status⟩⟩
    · obtain rfl : i.argument.toNat = n := Option.some.inj (haddr.symm.trans hn)
      exact heffect.read_other ha
    · simp [haddr] at hnone
    · exact heffect.rv_eq_of_ne (by simp [h2])
  · exact ⟨fun _ _ _ _ => rfl, fun _ => rfl, fun _ => ⟨rfl, rfl, rfl⟩, fun _ => rfl,
      fun _ => ⟨Nat.le_succ _, List.prefix_refl _⟩, List.dropLast_prefix _, hprog, hloaded, hparams,
      fun hne => absurd rfl hne⟩

end Sys2Proof.Machine
end

section
/-! PROOFS. Two instructions in a row (43_multiply.md R135, 20_memory.md R60): the second one reads the value that the first
one left. -/

namespace Sys2Proof.Machine

open Sys2Proof

/-- Settles O24: the first `MULTIPLY` leaves its product on the stack and in the cell, so the second one multiplies it by
itself. -/
theorem secondMultiplySquares : Obligations.SecondMultiplySquares := by
  unfold Obligations.SecondMultiplySquares
  intro arg s r v hwf hstack hlt hfits hfits2
  obtain ⟨t, hxt, hct, htstack, htmem, htrv⟩ := exec_multiply_of_fits hstack hlt hfits
  have htwf : t.mem.wf = true := htmem ▸ Memory.wf_write hwf hlt _
  have htread : t.mem.read arg.toNat = v * s.mem.read arg.toNat := by rw [htmem, Memory.read_write hwf, if_pos rfl]
  have hsquare : v * s.mem.read arg.toNat * t.mem.read arg.toNat = (v * s.mem.read arg.toNat) ^ 2 := by
    rw [htread, sq]
  obtain ⟨u, hxu, hcu, hustack, humem, hurv⟩ := exec_multiply_of_fits htstack hlt (by rwa [hsquare, hct.params])
  rw [hsquare] at hustack humem hurv
  refine ⟨t, u, hxt, hxu, hustack, ?_, ?_, ?_⟩
  · rw [humem, Memory.read_write htwf, if_pos rfl]
  · rw [hurv, htrv, List.append_assoc, List.singleton_append]
  · rw [hcu.pc, hct.pc]

/-- Settles O25: the memory after the store reads the stored value at its cell, and the later state has that memory. -/
theorem loadAndMultiplySeeTheLastStore : Obligations.LoadAndMultiplySeeTheLastStore := by
  unfold Obligations.LoadAndMultiplySeeTheLastStore
  intro arg x s t u r r' v w hwf hstack hlt hx hmem
  have hread : u.mem.read arg.toNat = v := by
    have heffect : InstrEffect s (.storeToMemory arg) (s.pop.memWrite arg.toNat v) := .storeToMemory hstack hlt
    obtain rfl := Host.Outcome.next.inj (hx.symm.trans (exec_of_effect heffect))
    rw [hmem, State.completed_mem, State.memWrite_mem, Memory.read_write (m := s.pop.mem) hwf, if_pos rfl]
  refine ⟨fun hustack => ?_, fun hustack hfits => ?_⟩
  · obtain ⟨-, -, -, hload⟩ := loadFromMemoryMeaning x u
    obtain ⟨q, hxq, -, hq, -, -⟩ := hload r' _ hustack (by omega) (by omega)
    exact ⟨q, hxq, by rw [hq, Int.toNat_natCast, hread]⟩
  · obtain ⟨q, hxq, -, hq, -, -⟩ := exec_multiply_of_fits hustack hlt (by rwa [hread])
    exact ⟨q, hxq, by rw [hq, hread]⟩

end Sys2Proof.Machine
end

section
/-! PROOFS. The priority of the checks (60_exceptions.md R164, R167). -/

namespace Sys2Proof.Machine

open Sys2Proof

section

variable {s : State} {i : Instr}

/-- The address check comes after the stack check, on the top for opcode 7 and on the argument for opcodes 2 and 3
(20_memory.md R53, R54). -/
theorem faultGround_addressOutOfRange_iff {v : Int} : FaultGround s i .addressOutOfRange v ↔
    (i.opcode = 7 ∧ s.top = some v ∧ (v < 0 ∨ (memCells : Int) ≤ v)) ∨
      ((i.opcode = 2 ∨ i.opcode = 3) ∧ s.stack ≠ [] ∧ memCells ≤ i.argument.toNat ∧ v = i.argument.toNat) := by
  constructor
  · intro h
    cases h with
    | loadRange hstack hrange => exact .inl ⟨rfl, State.top_of_append hstack, hrange⟩
    | directRange hop hne hrange => exact .inr ⟨hop, hne, hrange, rfl⟩
  · rintro (⟨hop, htop, hrange⟩ | ⟨hop, hne, hrange, rfl⟩)
    · rw [Instr.eq_ofFields_of_opcode hop]
      exact .loadRange (State.top_eq_some.1 htop) hrange
    · exact .directRange hop hne hrange

/-- The checks that an instruction has passed when it completes: those of its own rule. -/
theorem InstrEffect.checks_passed {s' : State} (h : InstrEffect s i s') : i.known = true ∧
    (i.opcode ≠ 1 → s.stack ≠ []) ∧ (i.opcode = 2 ∨ i.opcode = 3 → i.argument.toNat < memCells) ∧
    (i.opcode = 7 → ∃ r a, s.stack = r ++ [a] ∧ 0 ≤ a ∧ a < (memCells : Int)) ∧
    (i.opcode = 3 → ∃ r v, s.stack = r ++ [v] ∧ Fits s.params (v * s.mem.read i.argument.toNat)) ∧
    (i.opcode = 1 → s.params.stackDepth ≠ .finite s.stack.length) := by
  cases h with
  | loadConstant hroom =>
    have hne : s.params.stackDepth ≠ .finite s.stack.length := mt stackFull_iff.2 (Bool.eq_false_iff.1 hroom)
    simp [Instr.known, Instr.opcode, hne]
  | loadFromMemory hstack hnonneg hlt =>
    exact ⟨rfl, fun _ => by simp [hstack], nofun, fun _ => ⟨_, _, hstack, hnonneg, hlt⟩, nofun, nofun⟩
  | storeToMemory hstack hlt =>
    exact ⟨rfl, fun _ => by simp [hstack], fun _ => hlt, nofun, nofun, nofun⟩
  | multiply hstack hlt hfits =>
    exact ⟨rfl, fun _ => by simp [hstack], fun _ => hlt, nofun, fun _ => ⟨_, _, hstack, fits_iff.1 hfits⟩, nofun⟩

end

/-- Settles O30: the ground of the fault, with the stack check passed. -/
theorem addressOutOfRangeExactly : Obligations.AddressOutOfRangeExactly := by
  unfold Obligations.AddressOutOfRangeExactly
  intro i s r v hstack
  have htop := State.top_of_append hstack
  have hne : s.stack ≠ [] := by simp [hstack]
  refine ⟨fun hop => ?_, fun hop => ?_, fun a henters => ?_⟩
  · rw [enters_iff_ground, faultGround_addressOutOfRange_iff]
    simp [hop, htop, memCells_eq]
  · have h7 : i.opcode ≠ 7 := by rcases hop with hop | hop <;> simp [hop]
    rw [enters_iff_ground, faultGround_addressOutOfRange_iff]
    refine ⟨fun hrange => .inr ⟨hop, hne, hrange, rfl⟩, ?_⟩
    rintro (⟨hload, -, -⟩ | ⟨-, -, hrange, -⟩)
    · exact absurd hload h7
    · exact hrange
  · rcases faultGround_addressOutOfRange_iff.1 (enters_iff_ground.1 henters) with ⟨hop, -⟩ | ⟨hop, -⟩
    · exact .inl hop
    · exact .inr hop

/-- Settles O32: an instruction has the ground of one fault, which is the first check that fails, or the effect of its rule,
and then each check has passed. -/
theorem faultPriorityIsComplete : Obligations.FaultPriorityIsComplete := by
  unfold Obligations.FaultPriorityIsComplete
  intro i s
  rcases exec_total i s with ⟨s', heffect, hx⟩ | ⟨c, v, hground, -⟩
  · obtain ⟨hknown, hchecks⟩ := heffect.checks_passed
    iterate 6 right
    exact ⟨hknown, ⟨_, hx, heffect.completes⟩, hchecks⟩
  · have henters := enters_iff_ground.2 hground
    cases hground with
    | illegal hknown => exact .inl ⟨hknown, henters⟩
    | underflow hop hempty => exact .inr (.inl ⟨hop, hempty, henters⟩)
    | loadRange hstack hrange => exact .inr (.inr (.inl ⟨rfl, _, _, hstack, hrange, henters⟩))
    | directRange hop hne hrange => exact .inr (.inr (.inr (.inl ⟨hop, hne, hrange, henters⟩)))
    | overflow hstack hlt hfits =>
      exact .inr (.inr (.inr (.inr (.inl ⟨rfl, hlt, ⟨_, _, hstack, fits_eq_false_iff.1 hfits⟩, henters⟩))))
    | full hfull => exact .inr (.inr (.inr (.inr (.inr (.inl ⟨rfl, stackFull_iff.1 hfull, henters⟩)))))

end Sys2Proof.Machine
end

section
/-! PROOFS. The encodings of an instruction (30_encoding.md R85 and section 4): five bytes are an instruction and the 13 bits
that the decoder ignores, and no more. -/

namespace Sys2Proof.Machine

open Sys2Proof Sys2Proof.Laws Sys2Proof.Laws.EncodingShape

/-! ## Five bytes as fields and ignored bits -/

/-- The argument's bytes are bytes 0 to 2, as the decoder reads them. -/
theorem decodeFields_argument_bytes (b : InstrBytes) : (decodeFields b).2.extractLsb' 0 8 = b.b0 ∧
    (decodeFields b).2.extractLsb' 8 8 = b.b1 ∧ (decodeFields b).2.extractLsb' 16 8 = b.b2 := by
  have h0 := b.b0.isLt
  have h1 := b.b1.isLt
  have h2 := b.b2.isLt
  refine ⟨?_, ?_, ?_⟩ <;> apply BitVec.eq_of_toNat_eq <;>
    rw [BitVec.extractLsb'_toNat, decodeFields_argument_toNat, Nat.shiftRight_eq_div_pow] <;> omega

/-- Byte 3 of five bytes with these top three bits and these unused bits (30_encoding.md R71). -/
theorem opcode_append_toNat (op : Opcode) (low : BitVec 5) : (op ++ low).toNat = 32 * op.toNat + low.toNat := by
  rw [BitVec.toNat_append, ← Nat.shiftLeft_add_eq_or_of_lt low.isLt, Nat.shiftLeft_eq]
  omega

/-- The bits that the decoder ignores: bits 4:0 of byte 3, and byte 4 (30_encoding.md R78, R79). -/
abbrev IgnoredBits := BitVec 5 × Byte

def ignoredBits (b : InstrBytes) : IgnoredBits :=
  (b.b3.setWidth 5, b.b4)

/-- The five bytes of an instruction with these ignored bits. -/
def bytesWithIgnored (i : Instr) (g : IgnoredBits) : InstrBytes :=
  ⟨i.argument.extractLsb' 0 8, i.argument.extractLsb' 8 8, i.argument.extractLsb' 16 8, i.opcode ++ g.1, g.2⟩

theorem bytesWithIgnored_b3_toNat (i : Instr) (g : IgnoredBits) :
    (bytesWithIgnored i g).b3.toNat = 32 * i.opcode.toNat + g.1.toNat :=
  opcode_append_toNat i.opcode g.1

@[simp] theorem decodeBytes_bytesWithIgnored (i : Instr) (g : IgnoredBits) : decodeBytes (bytesWithIgnored i g) = i := by
  have hlow := g.1.isLt
  obtain ⟨-, hdecode⟩ := encodedAs_opcodeByte i
  refine (hdecode _).2 ⟨?_, argument_toNat_eq_bytes i.argument⟩
  rw [bytesWithIgnored_b3_toNat, opcodeByte_toNat]
  omega

@[simp] theorem ignoredBits_bytesWithIgnored (i : Instr) (g : IgnoredBits) : ignoredBits (bytesWithIgnored i g) = g := by
  have hlow := g.1.isLt
  have h3 : (bytesWithIgnored i g).b3.setWidth 5 = g.1 := by
    apply BitVec.eq_of_toNat_eq
    rw [BitVec.toNat_setWidth, bytesWithIgnored_b3_toNat]
    omega
  exact Prod.ext h3 rfl

@[simp] theorem bytesWithIgnored_decodeBytes (b : InstrBytes) :
    bytesWithIgnored (decodeBytes b) (ignoredBits b) = b := by
  obtain ⟨h0, h1, h2⟩ := decodeFields_argument_bytes b
  have h3 : (decodeFields b).1 ++ b.b3.setWidth 5 = b.b3 := by
    apply BitVec.eq_of_toNat_eq
    rw [opcode_append_toNat, decodeFields_opcode_toNat, BitVec.toNat_setWidth]
    omega
  rw [bytesWithIgnored, decodeBytes_argument, decodeBytes_opcode, h0, h1, h2]
  exact congrArg (InstrBytes.mk b.b0 b.b1 b.b2 · b.b4) h3

/-- Five bytes are an instruction and its ignored bits (30_encoding.md section 4). -/
def bytesEquiv : InstrBytes ≃ Instr × IgnoredBits where
  toFun b := (decodeBytes b, ignoredBits b)
  invFun x := bytesWithIgnored x.1 x.2
  left_inv := bytesWithIgnored_decodeBytes
  right_inv x := by simp

theorem card_bitVec (n : Nat) : Nat.card (BitVec n) = 2 ^ n := by
  rw [Nat.card_congr BitVec.equivFin.toEquiv, Nat.card_fin]

theorem card_ignoredBits : Nat.card IgnoredBits = 2 ^ 13 := by
  rw [Nat.card_prod, card_bitVec, card_bitVec, ← pow_add]

/-- Every instruction of a set has `2^13` encodings. -/
theorem card_bytes_decoding_to (p : Instr → Prop) :
    Nat.card { b : InstrBytes // p (decodeBytes b) } = Nat.card { i : Instr // p i } * 2 ^ 13 := by
  have hsplit : { b : InstrBytes // p (decodeBytes b) } ≃ { x : Instr × IgnoredBits // p x.1 } :=
    bytesEquiv.subtypeEquiv fun _ => Iff.rfl
  rw [Nat.card_congr (hsplit.trans Equiv.prodSubtypeFstEquivSubtypeProd), Nat.card_prod, card_ignoredBits]

/-- A `LOAD_FROM_MEMORY` is its argument. -/
def loadFromMemoryEquiv : Argument ≃ { i : Instr // ∃ arg, i = .loadFromMemory arg } where
  toFun arg := ⟨.loadFromMemory arg, arg, rfl⟩
  invFun i := i.1.argument
  left_inv _ := rfl
  right_inv := by
    rintro ⟨_, arg, rfl⟩
    rfl

theorem card_loadFromMemory : Nat.card { i : Instr // ∃ arg, i = .loadFromMemory arg } = 2 ^ 24 := by
  rw [← Nat.card_congr loadFromMemoryEquiv, card_bitVec]

/-! ## Encoding what was decoded -/

theorem encodeFields_decodeFields (b : InstrBytes) : encodeFields (decodeFields b).1 (decodeFields b).2 =
    [b.b0, b.b1, b.b2, opcodeByte (decodeFields b).1, 0x00#8] := by
  obtain ⟨h0, h1, h2⟩ := decodeFields_argument_bytes b
  rw [encodeFields_shape, h0, h1, h2]

/-- The encoder's byte 3 is the given one exactly when its unused bits are 0 (30_encoding.md R85). -/
theorem opcodeByte_decodeFields_eq_iff (b : InstrBytes) :
    opcodeByte (decodeFields b).1 = b.b3 ↔ b.b3.toNat % 32 = 0 := by
  rw [← BitVec.toNat_inj, opcodeByte_toNat, decodeFields_opcode_toNat]
  omega

/-- Decoding the reference encoding of any source form yields its masked fields (30_encoding.md R85). -/
theorem decode_sourceForm_encode (f : SourceForm) : ∃ i, decode f.encode = .ok (i, []) ∧
    (i.opcode.toNat : Int) = f.a % 8 ∧ (i.argument.toNat : Int) = f.b % 2 ^ 24 := by
  refine ⟨Instr.ofFields (BitVec.ofInt 3 f.a) (BitVec.ofInt 24 f.b), ?_, ?_, ?_⟩
  · exact decode_encodeFields_append (BitVec.ofInt 3 f.a) (BitVec.ofInt 24 f.b) []
  · rw [ofFields_opcode, toNat_ofInt_eq_emod]
    rfl
  · rw [ofFields_argument, toNat_ofInt_eq_emod]

/-! ## The statements -/

/-- Settles O6: the encoding is the packed word of the instruction's fields, which the opcode map inverts. -/
theorem decodeOfEncodeIsTheInstruction : Obligations.DecodeOfEncodeIsTheInstruction := by
  unfold Obligations.DecodeOfEncodeIsTheInstruction
  intro i rest
  refine ⟨wellFormed_of_type i, ?_⟩
  rw [encode, decode_encodeFields_append, ofFields_of_instr]

/-- Settles O5: valid fields are their own remainders, and the encoder restores all bits but the 13 ignored ones. -/
theorem roundTripOfFields : Obligations.RoundTripOfFields := by
  unfold Obligations.RoundTripOfFields
  refine ⟨fun f hvalid => ?_, decode_sourceForm_encode, fun b => ?_⟩
  · obtain ⟨i, hdecode, hop, harg⟩ := decode_sourceForm_encode f
    simp only [SourceForm.valid, Bool.and_eq_true, decide_eq_true_eq] at hvalid
    exact ⟨i, hdecode, by omega, by omega⟩
  · rw [encodeFields_decodeFields, ← opcodeByte_decodeFields_eq_iff]
    simp [InstrBytes.toList, eq_comm (a := b.b4)]

/-- Settles O7: an instruction is one of its kind, and `LOAD_FROM_MEMORY` has `2^24` arguments. -/
theorem countOfEncodings : Obligations.CountOfEncodings := by
  unfold Obligations.CountOfEncodings
  refine ⟨fun i => ?_, ?_⟩
  · rw [card_bytes_decoding_to (· = i), Nat.card_unique, one_mul]
  · rw [card_bytes_decoding_to (fun i => ∃ arg, i = .loadFromMemory arg), card_loadFromMemory, ← pow_add]

/-- Settles O8: by running decoder and encoder. -/
theorem workedEncodingsDecode : Obligations.WorkedEncodingsDecode := by
  unfold Obligations.WorkedEncodingsDecode
  decide

end Sys2Proof.Machine
end

section
/-! PROOFS. The assembler's error (30_encoding.md R86, R88). -/

namespace Sys2Proof.Machine

open Sys2Proof

/-- A line that is not blank and has no source form (30_encoding.md R88). -/
def MalformedLine (items : List SourceItem) : Prop :=
  items ≠ [] ∧ sourceForm items = none

/-- Line `k`, counted from 0, is the first malformed one. -/
def FirstMalformed (lines : List (List SourceItem)) (k : Nat) : Prop :=
  (∃ items, lines[k]? = some items ∧ MalformedLine items) ∧
    ∀ j, j < k → ∀ earlier, lines[j]? = some earlier → ¬ MalformedLine earlier

variable {items : List SourceItem} {lines : List (List SourceItem)}

theorem not_malformedLine_iff : ¬ MalformedLine items ↔ items = [] ∨ sourceForm items ≠ none := by
  rw [MalformedLine, not_and_or, not_not]

theorem not_firstMalformed_nil (k : Nat) : ¬ FirstMalformed [] k := by
  rintro ⟨⟨items, hline, -⟩, -⟩
  simp at hline

theorem firstMalformed_cons_zero : FirstMalformed (items :: lines) 0 ↔ MalformedLine items := by
  simp [FirstMalformed]

theorem firstMalformed_cons_succ (k : Nat) :
    FirstMalformed (items :: lines) (k + 1) ↔ ¬ MalformedLine items ∧ FirstMalformed lines k := by
  simp only [FirstMalformed, List.getElem?_cons_succ]
  constructor
  · rintro ⟨hline, hearlier⟩
    exact ⟨hearlier 0 (Nat.succ_pos k) items rfl, hline, fun j hj => hearlier (j + 1) (Nat.succ_lt_succ hj)⟩
  · rintro ⟨hfirst, hline, hearlier⟩
    refine ⟨hline, fun j hj earlier he => ?_⟩
    cases j with
    | zero => exact Option.some.inj he ▸ hfirst
    | succ j => exact hearlier j (Nat.lt_of_succ_lt_succ hj) earlier he

theorem parseListing_of_malformed (h : MalformedLine items) (n : Nat) :
    parseListing n (items :: lines) = .error (.malformedInstruction n) := by
  obtain ⟨hne, hform⟩ := h
  cases items with
  | nil => exact absurd rfl hne
  | cons item items => simp only [parseListing, hform]

/-- A line that is blank or has a source form passes on the error of the lines after it. -/
theorem parseListing_error_of_not_malformed (h : ¬ MalformedLine items) (n : Nat) (e : AsmError) :
    parseListing n (items :: lines) = .error e ↔ parseListing (n + 1) lines = .error e := by
  cases items with
  | nil => rw [parseListing]
  | cons item items =>
    cases hform : sourceForm (item :: items) with
    | none => exact absurd ⟨List.cons_ne_nil _ _, hform⟩ h
    | some f => cases hrest : parseListing (n + 1) lines <;> simp [parseListing, hform, hrest]

/-- The parser names the first malformed line, counted from the number of its first line. -/
theorem parseListing_eq_error_iff (start n : Nat) :
    parseListing start lines = .error (.malformedInstruction n) ↔ ∃ k, n = k + start ∧ FirstMalformed lines k := by
  induction lines generalizing start with
  | nil => simp [parseListing, not_firstMalformed_nil]
  | cons items lines ih =>
    by_cases hmal : MalformedLine items
    · rw [parseListing_of_malformed hmal, Except.error.injEq, AsmError.malformedInstruction.injEq]
      constructor
      · rintro rfl
        exact ⟨0, (Nat.zero_add _).symm, firstMalformed_cons_zero.2 hmal⟩
      · rintro ⟨k, rfl, hfirst⟩
        cases k with
        | zero => exact (Nat.zero_add _).symm
        | succ k => exact absurd hmal ((firstMalformed_cons_succ k).1 hfirst).1
    · rw [parseListing_error_of_not_malformed hmal, ih]
      constructor
      · rintro ⟨k, rfl, hfirst⟩
        exact ⟨k + 1, by omega, (firstMalformed_cons_succ k).2 ⟨hmal, hfirst⟩⟩
      · rintro ⟨k, rfl, hfirst⟩
        cases k with
        | zero => exact absurd (firstMalformed_cons_zero.1 hfirst) hmal
        | succ k => exact ⟨k, by omega, ((firstMalformed_cons_succ k).1 hfirst).2⟩

theorem assemble_eq_error_iff (e : AsmError) : assemble lines = .error e ↔ parseListing 1 lines = .error e := by
  rw [assemble]
  split <;> simp [*]

end Sys2Proof.Machine
end

section
/-! PROOFS. The statement about the assembler's error. -/

namespace Sys2Proof.Machine

open Sys2Proof

/-- Settles O11: by induction over the lines, for any number of the first one. -/
theorem firstMalformedLineIsNamed : Obligations.FirstMalformedLineIsNamed := by
  unfold Obligations.FirstMalformedLineIsNamed
  intro lines n
  rw [assemble_eq_error_iff, parseListing_eq_error_iff]
  simp only [FirstMalformed, not_malformedLine_iff]
  constructor
  · rintro ⟨k, hn, ⟨items, hline, hne, hform⟩, hearlier⟩
    exact ⟨k, items, hn, hline, hne, hform, hearlier⟩
  · rintro ⟨k, items, hn, hline, hne, hform, hearlier⟩
    exact ⟨k, hn, ⟨items, hline, hne, hform⟩, hearlier⟩

end Sys2Proof.Machine
end

section
/-! PROOFS. The step by status (40_engine_cycle.md R102 to R107, 60_exceptions.md R169, R170). -/

namespace Sys2Proof.Machine

open Sys2Proof

/-! ## The fetch -/

theorem decode_eq_ok {l rest : List Byte} {i : Instr} (h : decode l = .ok (i, rest)) :
    ∃ b : InstrBytes, i = decodeBytes b ∧ l = b.toList ++ rest := by
  unfold decode at h
  split at h
  · next b0 b1 b2 b3 b4 tail =>
    obtain ⟨rfl, rfl⟩ := Prod.mk.inj (Except.ok.inj h)
    exact ⟨⟨b0, b1, b2, b3, b4⟩, rfl, rfl⟩
  · cases h

/-- `ProgRead` reads the bytes at the front of what is left of the program (00_scope.md R7). -/
theorem progRead_eq_of_drop {prog rest : List Byte} {off : Nat} {b : InstrBytes}
    (h : prog.drop off = b.toList ++ rest) : progRead prog off = b := by
  have hbyte (k : Nat) : prog.getD (off + k) 0 = (b.toList ++ rest).getD k 0 := by
    rw [← h, List.getD_eq_getElem?_getD, List.getD_eq_getElem?_getD, List.getElem?_drop]
  have hbyte0 : prog.getD off 0 = (b.toList ++ rest).getD 0 0 := hbyte 0
  rw [progRead, hbyte0, hbyte 1, hbyte 2, hbyte 3, hbyte 4]
  rfl

/-- Settles O12: the five bytes at the front of what is left are those that the step fetches. -/
theorem stepRunsTheDecodedInstruction : Obligations.StepRunsTheDecodedInstruction := by
  unfold Obligations.StepRunsTheDecodedInstruction
  intro s i rest hrun hdecode
  obtain ⟨b, rfl, hdrop⟩ := decode_eq_ok hdecode
  have hfetch : s.fetchInstr = decodeBytes b := by rw [State.fetchInstr, progRead_eq_of_drop hdrop]
  have hroom : s.pc + 5 ≤ s.prog.length := by
    have hlength := congrArg List.length hdrop
    simp [InstrBytes.toList] at hlength
    omega
  rw [step_exec hrun hroom, hfetch]

/-! ## The status -/

theorem step_next_of_run {s : State} (hrun : s.status = .run) : ∃ t, step s = .next t := by
  by_cases hend : s.prog.length < s.pc + 5
  · exact ⟨_, step_at_end hrun hend⟩
  · obtain ⟨t, hx⟩ := exec_next s.fetchInstr s
    exact ⟨t, (step_exec hrun (Nat.le_of_not_lt hend)).trans hx⟩

theorem step_of_fault {s : State} (hfault : s.status = .fault) : step s = faultStop s.fault := by
  simp only [step, hfault]

/-- Settles O14: in `RUN` the program is at its end or `exec` answers; outside there is no step. -/
theorem stepIsDefinedExactlyInRun : Obligations.StepIsDefinedExactlyInRun := by
  unfold Obligations.StepIsDefinedExactlyInRun
  refine fun s => ⟨?_, step_next_of_run⟩
  rintro ⟨t, h⟩
  exact (step_ends_completes_or_enters h).1

/-- Settles O15: the step's arms by status, and in `FAULT` those of `faultStop` by code. -/
theorem stoppedEngineSaysWhy : Obligations.StoppedEngineSaysWhy := by
  unfold Obligations.StoppedEngineSaysWhy
  intro s
  refine ⟨fun hidle => by simp only [step, hidle], fun hdone => by simp only [step, hdone], ?_, ?_, ?_, ?_, ?_⟩ <;>
    intro hfault hcode <;> rw [step_of_fault hfault, faultStop, hcode]

/-- Settles O34: by evaluation of the two numberings. -/
theorem statusAndFaultCodeNumbers : Obligations.StatusAndFaultCodeNumbers := by
  unfold Obligations.StatusAndFaultCodeNumbers
  decide

end Sys2Proof.Machine
end

section
/-! PROOFS. How a run ends, and what it leaves for the next one (40_engine_cycle.md section 3, 60_exceptions.md R168,
70_reset_and_hazards.md R193). -/

namespace Sys2Proof.Machine

open Sys2Proof

/-- A step ends the run, or it consumes five bytes of the program and stays in `RUN`. -/
theorem step_ends_or_advances {s t : State} (h : step s = .next t) : t.ended = true ∨
    (s.pc + 5 ≤ s.prog.length ∧ t.status = .run ∧ t.pc = s.pc + 5 ∧ t.prog = s.prog) := by
  obtain ⟨hrun, ⟨-, rfl⟩ | ⟨hroom, hc⟩ | ⟨-, c, v, hf⟩⟩ := step_ends_completes_or_enters h
  · exact .inl rfl
  · exact .inr ⟨hroom, hc.status.trans hrun, hc.pc, hc.prog⟩
  · exact .inl (State.ended_iff.2 (.inr hf.status))

/-- The bytes left bound the length of the run. -/
theorem run_ends_within {s : State} (hrun : s.status = .run) :
    ∃ k t, k ≤ (s.prog.length - s.pc) / 5 + 1 ∧ core.run k s = .next t ∧ t.ended = true := by
  obtain ⟨t, hstep⟩ := step_next_of_run hrun
  rcases step_ends_or_advances hstep with hended | ⟨hroom, htrun, hpc, hprog⟩
  · exact ⟨1, t, Nat.le_add_left 1 _, (core_run_succ hstep 0).trans (core_run_zero t), hended⟩
  · obtain ⟨k, u, hk, hsteps, hended⟩ := run_ends_within htrun
    rw [hprog, hpc] at hk
    exact ⟨k + 1, u, by omega, (core_run_succ hstep k).trans hsteps, hended⟩
termination_by s.prog.length - s.pc
decreasing_by
  rw [hprog, hpc]
  omega

/-- The reads of the logs have a move once the run has ended (44_host_readout.md R149). -/
theorem hostOp_reads_of_ended {s : State} (h : s.ended = true) :
    hostOp .readTrace s = .ok (s, .trace s.trace) ∧ hostOp .readRV s = .ok (s, .rv s.rv) :=
  ⟨if_pos h, if_pos h⟩

theorem hostOp_reads_of_not_ended {s : State} (h : s.ended = false) :
    hostOp .readTrace s = .error .runNotEnded ∧ hostOp .readRV s = .error .runNotEnded := by
  simp [hostOp, h]

/-- `ReadOut` has no move outside `DONE` (44_host_readout.md R148). -/
theorem hostOp_readOut_of_not_done {s : State} (h : s.status ≠ .done) (first last : Int) :
    hostOp (.readOut first last) s = .error .runNotDone :=
  if_neg h

theorem hostOp_readOut_allowed_iff {s : State} {first last : Int} :
    (∃ t r, hostOp (.readOut first last) s = .ok (t, r)) ↔ s.status = .done := by
  constructor
  · rintro ⟨t, r, h⟩
    by_contra hne
    simp [hostOp_readOut_of_not_done hne] at h
  · exact fun hdone => ⟨_, _, hostOp_readOut_of_done hdone first last⟩

/-- A state in which `Start` has a move is made into the start state of its program. -/
theorem hostOp_start_of_ended {s : State} (hended : s.ended = true) (hloaded : s.progLoaded = true) :
    hostOp .start s = .ok (s.startRun, .accepted) := by
  have hrun : s.status ≠ .run := by rcases State.ended_iff.1 hended with h | h <;> simp [h]
  exact hostOp_start.2 ⟨hrun, hloaded, rfl, rfl⟩

/-- Settles O40: each step that does not end the run consumes five bytes, and `Start` sets `pc` to 0. -/
theorem everyRunEnds : Obligations.EveryRunEnds := by
  unfold Obligations.EveryRunEnds
  refine ⟨fun s => run_ends_within, fun s₀ s r hop => ?_⟩
  obtain ⟨-, -, rfl, -⟩ := hostOp_start.1 hop
  exact run_ends_within s₀.startRun_status

/-- Settles O42: `RunPosition` places `FAULT` at its record, and the reads wait for the end of the run alone. -/
theorem faultedRunState : Obligations.FaultedRunState := by
  unfold Obligations.FaultedRunState
  intro s₀ t _ hreach hfault
  have hpos := hreach.runPosition
  obtain ⟨-, hstep⟩ := hpos.fault_at_record hfault
  obtain ⟨htrace, hrv⟩ := hostOp_reads_of_ended (State.ended_iff.2 (.inr hfault))
  refine ⟨by rw [hstep, hpos.pc_eq], hstep.symm, by rw [hstep, hpos.trace_length], ?_, htrace, hrv, ?_⟩
  · rw [hostOp_readStatus, hfault, if_pos rfl]
  · exact hostOp_readOut_of_not_done (by simp [hfault])

/-- Settles O43: the start state is made of the inputs of the run, which the run keeps. -/
theorem noLeakageBetweenRuns : Obligations.NoLeakageBetweenRuns := by
  unfold Obligations.NoLeakageBetweenRuns
  refine ⟨fun s₁ s₂ t₁ t₂ hprog hparams hop₁ hop₂ => ?_, fun s₀ s t hop hsteps hended => ?_⟩
  · obtain ⟨-, hloaded₁, rfl, -⟩ := hostOp_start.1 hop₁
    obtain ⟨-, hloaded₂, rfl, -⟩ := hostOp_start.1 hop₂
    exact State.startRun_congr hprog (hloaded₁.trans hloaded₂.symm) hparams
  · obtain ⟨-, hloaded, rfl, -⟩ := hostOp_start.1 hop
    obtain ⟨hprog, hloaded', hparams⟩ := hsteps.keeps_inputs
    have hstart : t.startRun = s₀.startRun := State.startRun_congr hprog hloaded' hparams
    rw [hostOp_start_of_ended hended (hloaded'.trans hloaded), hstart]

end Sys2Proof.Machine
end

section
/-! PROOFS. The host operations and the ports (10_state.md R35, R36). -/

namespace Sys2Proof.Machine

open Sys2Proof

theorem programFits_iff {p : Params} {len : Nat} :
    programFits p len = true ↔ ∀ n, p.progMaxBytes = .finite n → len ≤ n := by
  unfold programFits
  cases p.progMaxBytes <;> simp

theorem hostOp_loadProgram_allowed_iff {s : State} {bytes : List Byte} :
    (∃ t r, hostOp (.loadProgram bytes) s = .ok (t, r)) ↔
      s.status ≠ .run ∧ ∀ n, s.params.progMaxBytes = .finite n → bytes.length ≤ n := by
  rw [← programFits_iff]
  constructor
  · rintro ⟨t, r, h⟩
    obtain ⟨hrun, hfits, -⟩ := hostOp_loadProgram.1 h
    exact ⟨hrun, hfits⟩
  · rintro ⟨hrun, hfits⟩
    exact ⟨_, _, hostOp_loadProgram.2 ⟨hrun, hfits, rfl, rfl⟩⟩

/-- Settles O49: each operation by its own lemma; the reads of logs and memory wait for the end of the run. -/
theorem hostOperations : Obligations.HostOperations := by
  unfold Obligations.HostOperations
  intro s
  refine ⟨fun bytes => hostOp_loadProgram_allowed_iff, fun bytes t r hop => ?_, hostOp_start_allowed_iff,
    fun t r hop => ?_, hostOp_readStatus s, fun hended => hostOp_reads_of_ended (State.ended_iff.2 hended),
    fun hnot => ?_, fun first last => hostOp_readOut_allowed_iff, fun first last t r hop => ?_⟩
  · obtain ⟨-, -, rfl, -⟩ := hostOp_loadProgram.1 hop
    exact ⟨rfl, rfl, rfl, rfl, rfl, rfl, rfl, rfl, rfl, rfl, rfl⟩
  · obtain ⟨-, -, rfl, -⟩ := hostOp_start.1 hop
    exact s.startRun_status
  · exact hostOp_reads_of_not_ended (Bool.eq_false_iff.2 (mt State.ended_iff.1 hnot))
  · exact hostOp_reads hop nofun nofun

/-- Settles O50: `RUN` is not the end of a run, so of the operations that are left `ReadStatus` alone has a move. -/
theorem hostOnlyReadsStatusDuringRun : Obligations.HostOnlyReadsStatusDuringRun := by
  unfold Obligations.HostOnlyReadsStatusDuringRun
  intro s t op r hrun hop
  have hended : s.ended = false := by simp [State.ended, hrun]
  rcases hostOp_cases_of_not_ended hended hop with ⟨bytes, rfl⟩ | rfl | rfl
  · obtain ⟨hne, -⟩ := hostOp_loadProgram.1 hop
    exact absurd hrun hne
  · obtain ⟨hne, -⟩ := hostOp_start.1 hop
    exact absurd hrun hne
  · rw [hostOp_readStatus, hrun] at hop
    obtain ⟨rfl, rfl⟩ := Prod.mk.inj (Except.ok.inj hop)
    exact ⟨rfl, rfl, rfl⟩

/-! ## The ports -/

/-- A log that has not grown pulses nothing. -/
theorem pulses_of_same_logs {s t : State} (htrace : t.trace = s.trace) (hrv : t.rv = s.rv) :
    pulses s t = ⟨none, none⟩ := by
  rw [pulses, htrace, hrv, List.getElem?_eq_none (le_refl _), List.getElem?_eq_none (le_refl _)]

theorem getElem?_length_append_toList (l : List Int) (o : Option Int) : (l ++ o.toList)[l.length]? = o := by
  cases o <;> simp

/-- Completion pulses the entry it appends, and the product that `MULTIPLY` appends. -/
theorem InstrEffect.pulses_completed {s s' : State} {i : Instr} (h : InstrEffect s i s') :
    pulses s (s'.completed i) =
      ⟨some ⟨i.opcode, i.argument, s'.stack⟩, if i.opcode = 3 then s'.stack.getLast? else none⟩ := by
  rw [pulses, h.completes.trace, State.completed_rv, h.rv_eq, List.getElem?_concat_length,
    getElem?_length_append_toList, State.completed_stack]

/-- Settles O52: of the three outcomes of a step completion alone stays in `RUN`, and the other two leave both logs. -/
theorem portsPulseOncePerCompletion : Obligations.PortsPulseOncePerCompletion := by
  unfold Obligations.PortsPulseOncePerCompletion
  intro s t h
  rcases step_cases h with ⟨-, -, rfl⟩ | ⟨hrun, -, hx⟩
  · exact ⟨nofun, fun _ => pulses_of_same_logs rfl rfl⟩
  · rcases exec_cases hx with ⟨s', heffect, rfl⟩ | ⟨c, v, -, rfl⟩
    · rw [heffect.pulses_completed, heffect.completes.status]
      exact ⟨fun _ => ⟨rfl, rfl⟩, fun hne => absurd hrun hne⟩
    · exact ⟨nofun, fun _ => pulses_of_same_logs rfl rfl⟩

end Sys2Proof.Machine
end
